-- ==== Sys2Proof/Word.lean ====
section
/-! DEFINITION. The bit-pattern types of the TNCU: a buffer byte, a bus word, and the 64-bit values. -/

namespace Sys2Proof

/-- One byte of a message buffer (00_scope.md R8, 10_state.md R27). -/
abbrev Byte := BitVec 8

/-- One 32-bit bus word (00_scope.md R7 `BUS_W`). -/
abbrev Word := BitVec 32

/-- A 64-bit value: ScaledNanoseconds or a clock identity (00_scope.md R7 `SN_W`, 10_state.md R23). -/
abbrev DWord := BitVec 64

end Sys2Proof
end

