-- ==== Sys2Proof/Config.lean ====
section
/-! DEFINITION. The fixed parameters of the TNCU (00_scope.md R7) and the one value the spec leaves free:
the bytes of the message buffers that nobody has written since reset (70_reset_and_hazards.md R126). -/

namespace Sys2Proof

/-- The two message buffers (10_state.md R27). -/
inductive BufId where
  /-- OBUF, which the PACK commands write. -/
  | obuf
  /-- IBUF, which UNPACKHDR and the UNPACK commands read. -/
  | ibuf
deriving DecidableEq, Repr

/-- Nanoseconds in a second, `NS_PER_S` (00_scope.md R7), the `E9` of 40_time_arith.md. -/
def Config.nsPerS : Int := 1000000000

/-- Fractional bits of a ScaledNanoseconds value, `SN_FRAC` (00_scope.md R7). -/
def Config.snFrac : Nat := 16

/-- Length of the common header, `HDR_LEN` (00_scope.md R7). -/
def Config.hdrLen : Nat := 34

/-- Size of each message buffer, `BUF_SIZE` (00_scope.md R7). -/
def Config.bufSize : Nat := 256

/-- FREE VALUE (70_reset_and_hazards.md R126; 93_implementation_defined.md U5; log 4): what a byte of a
buffer reads as when nobody has written it since the reset of the given number. It has no body, so nothing
can be proved of its value; it is fixed until the byte is written or the unit is reset again.
DESIGN CHOICE (log 13): it has no index for the unit or the run, so two states with equal `resets` (two
instances of 60_exceptions.md R123, or two runs of one) share the draw of every unwritten byte, which R126
leaves arbitrary. Unsafe for a claim that compares unwritten bytes of two states. -/
opaque Config.unwrittenByte : (buffer : BufId) → (resets : Nat) → (offset : Nat) → Byte

end Sys2Proof
end

