-- ==== Sys2Proof/Syntax.lean ====
section
/-! DEFINITION. The commands of the TNCU as syntax: one constructor for each row of spec/opcode_table.json
(30_encoding.md R53). The operand types hold exactly the operand values that R52 calls legal: every index 0
to 7, and the two meanings of SEL. -/

namespace Sys2Proof

/-- Index of an InternalTime register T0 to T7 (30_encoding.md R52: every value 0 to 7 is legal). -/
abbrev TReg := Fin 8

/-- What SEL selects as the source of WIRE2INT (30_encoding.md R52). -/
inductive WireSrc where
  /-- SEL = 0: the register `W`. -/
  | w
  /-- SEL = 1: `(RX.ts_sec, RX.ts_ns)`. -/
  | rxts
deriving DecidableEq, Repr

/-- What SEL selects as the source of SN2INT (30_encoding.md R52). -/
inductive SnSrc where
  /-- SEL = 0: the register `SN`. -/
  | sn
  /-- SEL = 1: `RXH.corr`. -/
  | rxcorr
deriving DecidableEq, Repr

/-- What SEL selects as the destination of INT2SN (30_encoding.md R52). -/
inductive SnDst where
  /-- SEL = 0: the register `SN`. -/
  | sn
  /-- SEL = 1: `CTX.corr`. -/
  | ctxcorr
deriving DecidableEq, Repr

/-- The commands of the opcode map (30_encoding.md R53), one constructor per row. -/
inductive Instr where
  /-- NOP, R72. -/
  | nop
  /-- NORM tD, tS, R73. -/
  | norm (rd rs1 : TReg)
  /-- ADD tD, tS1, tS2, R74. -/
  | add (rd rs1 rs2 : TReg)
  /-- SUB tD, tS1, tS2, R75. -/
  | sub (rd rs1 rs2 : TReg)
  /-- HALVE tD, tS, R76. -/
  | halve (rd rs1 : TReg)
  /-- FLOG2, R77. -/
  | flog2
  /-- INT2WIRE tS, R83. -/
  | int2wire (rs1 : TReg)
  /-- WIRE2INT tD, w or rxts, R84. -/
  | wire2int (rd : TReg) (src : WireSrc)
  /-- SN2INT tD, sn or rxcorr, R81. -/
  | sn2int (rd : TReg) (src : SnSrc)
  /-- INT2SN tS, sn or ctxcorr, R82. -/
  | int2sn (rs1 : TReg) (dst : SnDst)
  /-- PACK.SYNC, R88. -/
  | packSync
  /-- PACK.DELAYREQ, R90. -/
  | packDelayReq
  /-- PACK.PDELAYREQ, R92. -/
  | packPdelayReq
  /-- PACK.PDELAYRESP, R93. -/
  | packPdelayResp
  /-- PACK.FOLLOWUP, R89. -/
  | packFollowUp
  /-- PACK.DELAYRESP, R91. -/
  | packDelayResp
  /-- PACK.PDELAYRESPFU, R94. -/
  | packPdelayRespFu
  /-- PACK.ANNOUNCE, R87. -/
  | packAnnounce
  /-- PACK.MANAGEMENT, R95. -/
  | packManagement
  /-- UNPACK.SYNC, R100. -/
  | unpackSync
  /-- UNPACK.DELAYREQ, R102. -/
  | unpackDelayReq
  /-- UNPACK.PDELAYREQ, R104. -/
  | unpackPdelayReq
  /-- UNPACK.PDELAYRESP, R105. -/
  | unpackPdelayResp
  /-- UNPACK.FOLLOWUP, R101. -/
  | unpackFollowUp
  /-- UNPACK.DELAYRESP, R103. -/
  | unpackDelayResp
  /-- UNPACK.PDELAYRESPFU, R106. -/
  | unpackPdelayRespFu
  /-- UNPACK.ANNOUNCE, R99. -/
  | unpackAnnounce
  /-- UNPACK.MANAGEMENT, R107. -/
  | unpackManagement
  /-- UNPACKHDR, R98. -/
  | unpackHdr
deriving DecidableEq, Repr

end Sys2Proof
end

