-- ==== Sys2Proof/WellFormed.lean ====
section
/-! DEFINITION. Which command words are well formed, written from the mask table of 30_encoding.md R51 and
the opcode map of R53 alone. The decoder of Decode.lean tests the fields one by one as R50 does, and is a
separate text: the two must agree.

A term of `Instr` has no ill-formed case (its operand types hold the legal operands and no others), so what
can be ill formed is the WORD the host writes, in exactly the three ways the checks below name. -/

namespace Sys2Proof

/-- One row of spec/opcode_table.json: a word is this command when `v AND mask = pattern`. -/
structure EncodingRow where
  /-- The table's mnemonic. -/
  mnemonic : String
  /-- The mask of fixed bits, which R51 gives for the row's format. -/
  mask : Word
  /-- The fixed bits: the opcode, zero-extended. -/
  pattern : Word
deriving DecidableEq, Repr

/-- The time arithmetic and conversion rows of the table (30_encoding.md R53, R51). -/
def timeRows : List EncodingRow :=
  [⟨"NOP", 0xFFFFFFFF, 0x00⟩, ⟨"NORM", 0xFFFFC0FF, 0x01⟩, ⟨"ADD", 0xFFFE00FF, 0x02⟩,
   ⟨"SUB", 0xFFFE00FF, 0x03⟩, ⟨"HALVE", 0xFFFFC0FF, 0x04⟩, ⟨"FLOG2", 0xFFFFFFFF, 0x05⟩,
   ⟨"INT2WIRE", 0xFFFFC7FF, 0x08⟩, ⟨"WIRE2INT", 0xFFFDF8FF, 0x09⟩,
   ⟨"SN2INT", 0xFFFDF8FF, 0x0A⟩, ⟨"INT2SN", 0xFFFDC7FF, 0x0B⟩]

/-- The PACK rows of the table (30_encoding.md R53, format Z of R51). -/
def packRows : List EncodingRow :=
  [⟨"PACK.SYNC", 0xFFFFFFFF, 0x20⟩, ⟨"PACK.DELAYREQ", 0xFFFFFFFF, 0x21⟩,
   ⟨"PACK.PDELAYREQ", 0xFFFFFFFF, 0x22⟩, ⟨"PACK.PDELAYRESP", 0xFFFFFFFF, 0x23⟩,
   ⟨"PACK.FOLLOWUP", 0xFFFFFFFF, 0x28⟩, ⟨"PACK.DELAYRESP", 0xFFFFFFFF, 0x29⟩,
   ⟨"PACK.PDELAYRESPFU", 0xFFFFFFFF, 0x2A⟩, ⟨"PACK.ANNOUNCE", 0xFFFFFFFF, 0x2B⟩,
   ⟨"PACK.MANAGEMENT", 0xFFFFFFFF, 0x2D⟩]

/-- The UNPACK rows of the table and UNPACKHDR (30_encoding.md R53, format Z of R51). -/
def unpackRows : List EncodingRow :=
  [⟨"UNPACK.SYNC", 0xFFFFFFFF, 0x30⟩, ⟨"UNPACK.DELAYREQ", 0xFFFFFFFF, 0x31⟩,
   ⟨"UNPACK.PDELAYREQ", 0xFFFFFFFF, 0x32⟩, ⟨"UNPACK.PDELAYRESP", 0xFFFFFFFF, 0x33⟩,
   ⟨"UNPACK.FOLLOWUP", 0xFFFFFFFF, 0x38⟩, ⟨"UNPACK.DELAYRESP", 0xFFFFFFFF, 0x39⟩,
   ⟨"UNPACK.PDELAYRESPFU", 0xFFFFFFFF, 0x3A⟩, ⟨"UNPACK.ANNOUNCE", 0xFFFFFFFF, 0x3B⟩,
   ⟨"UNPACK.MANAGEMENT", 0xFFFFFFFF, 0x3D⟩, ⟨"UNPACKHDR", 0xFFFFFFFF, 0x40⟩]

/-- The opcode table, 29 rows. -/
def encodingTable : List EncodingRow := timeRows ++ packRows ++ unpackRows

/-- Check 1 (30_encoding.md R50, first test; R54 cause 1): the opcode is in the map. -/
def opcodeDefined (v : Word) : Bool :=
  encodingTable.any fun r => v &&& 0x000000FF == r.pattern

/-- Check 2 (30_encoding.md R49, R54 cause 2): RES, bits 31 to 18, is 0. -/
def reservedZero (v : Word) : Bool := v &&& 0xFFFC0000 == 0

/-- Check 3 (30_encoding.md R51, R54 cause 2): every field of bits 17 to 8 that the opcode's format leaves
unused is 0. -/
def unusedZero (v : Word) : Bool :=
  encodingTable.all fun r =>
    v &&& 0x000000FF != r.pattern || v &&& r.mask &&& 0x0003FF00 == 0

/-- A command word that passes the three checks. -/
def wellFormed (v : Word) : Bool := opcodeDefined v && reservedZero v && unusedZero v

/-- The same in one test, as the last sentence of 30_encoding.md R51 puts it: the word matches a row. -/
def matchesRow (v : Word) : Bool := encodingTable.any fun r => v &&& r.mask == r.pattern

end Sys2Proof
end

