-- ==== Sys2Proof/Decode.lean ====
section
/-! DEFINITION. From a command word to a command, total on all 2^32 words and rejecting by name
(30_encoding.md R49 to R54), and the encoder, from a command to its one word. -/

namespace Sys2Proof

/-- Why a word is no command; the names are the causes of 60_exceptions.md R110. -/
inductive IllegalWord where
  /-- Cause 1: the opcode is not in the map of R53. Safe: the unit records it and goes on. -/
  | reservedOpcode
  /-- Cause 2: RES or a field the format leaves unused is not 0. Safe: the unit records it and goes on. -/
  | nonzeroField
deriving DecidableEq, Repr

/-- What a word decodes to. -/
inductive Decoded where
  | command (i : Instr)
  | illegal (why : IllegalWord)
deriving DecidableEq, Repr

/-- The six formats of 30_encoding.md R51. -/
inductive Format where
  | z | r2 | r3 | s1 | s1s | d1s
deriving DecidableEq, Repr

/-- OPC, bits 7:0 (30_encoding.md R49). -/
def opcOf (v : Word) : BitVec 8 := v.extractLsb' 0 8
/-- RD, bits 10:8 (30_encoding.md R49). -/
def rdOf (v : Word) : BitVec 3 := v.extractLsb' 8 3
/-- RS1, bits 13:11 (30_encoding.md R49). -/
def rs1Of (v : Word) : BitVec 3 := v.extractLsb' 11 3
/-- RS2, bits 16:14 (30_encoding.md R49). -/
def rs2Of (v : Word) : BitVec 3 := v.extractLsb' 14 3
/-- SEL, bit 17 (30_encoding.md R49). -/
def selOf (v : Word) : BitVec 1 := v.extractLsb' 17 1
/-- RES, bits 31:18 (30_encoding.md R49). -/
def resOf (v : Word) : BitVec 14 := v.extractLsb' 18 14

/-- The fields a format leaves unused are 0 (the `0` entries of the table of 30_encoding.md R51). -/
def Format.unusedAreZero (f : Format) (v : Word) : Bool :=
  match f with
  | .z => rdOf v == 0 && rs1Of v == 0 && rs2Of v == 0 && selOf v == 0
  | .r2 => rs2Of v == 0 && selOf v == 0
  | .r3 => selOf v == 0
  | .s1 => rdOf v == 0 && rs2Of v == 0 && selOf v == 0
  | .s1s => rdOf v == 0 && rs2Of v == 0
  | .d1s => rs1Of v == 0 && rs2Of v == 0

/-- The index a 3-bit field names (30_encoding.md R52: unsigned). -/
def tReg (f : BitVec 3) : TReg := f.toFin

/-- SEL of WIRE2INT (30_encoding.md R52). -/
def WireSrc.ofSel (b : BitVec 1) : WireSrc := if b = 0 then .w else .rxts
/-- SEL of SN2INT (30_encoding.md R52). -/
def SnSrc.ofSel (b : BitVec 1) : SnSrc := if b = 0 then .sn else .rxcorr
/-- SEL of INT2SN (30_encoding.md R52). -/
def SnDst.ofSel (b : BitVec 1) : SnDst := if b = 0 then .sn else .ctxcorr

/-- The opcode map (30_encoding.md R53): the format of the word's opcode and the command its fields name,
or none where the opcode is reserved (R54). -/
def opcodeMap (v : Word) : Option (Format × Instr) :=
  match (opcOf v).toNat with
  | 0x00 => some (.z, .nop)
  | 0x01 => some (.r2, .norm (tReg (rdOf v)) (tReg (rs1Of v)))
  | 0x02 => some (.r3, .add (tReg (rdOf v)) (tReg (rs1Of v)) (tReg (rs2Of v)))
  | 0x03 => some (.r3, .sub (tReg (rdOf v)) (tReg (rs1Of v)) (tReg (rs2Of v)))
  | 0x04 => some (.r2, .halve (tReg (rdOf v)) (tReg (rs1Of v)))
  | 0x05 => some (.z, .flog2)
  | 0x08 => some (.s1, .int2wire (tReg (rs1Of v)))
  | 0x09 => some (.d1s, .wire2int (tReg (rdOf v)) (.ofSel (selOf v)))
  | 0x0A => some (.d1s, .sn2int (tReg (rdOf v)) (.ofSel (selOf v)))
  | 0x0B => some (.s1s, .int2sn (tReg (rs1Of v)) (.ofSel (selOf v)))
  | 0x20 => some (.z, .packSync)
  | 0x21 => some (.z, .packDelayReq)
  | 0x22 => some (.z, .packPdelayReq)
  | 0x23 => some (.z, .packPdelayResp)
  | 0x28 => some (.z, .packFollowUp)
  | 0x29 => some (.z, .packDelayResp)
  | 0x2A => some (.z, .packPdelayRespFu)
  | 0x2B => some (.z, .packAnnounce)
  | 0x2D => some (.z, .packManagement)
  | 0x30 => some (.z, .unpackSync)
  | 0x31 => some (.z, .unpackDelayReq)
  | 0x32 => some (.z, .unpackPdelayReq)
  | 0x33 => some (.z, .unpackPdelayResp)
  | 0x38 => some (.z, .unpackFollowUp)
  | 0x39 => some (.z, .unpackDelayResp)
  | 0x3A => some (.z, .unpackPdelayRespFu)
  | 0x3B => some (.z, .unpackAnnounce)
  | 0x3D => some (.z, .unpackManagement)
  | 0x40 => some (.z, .unpackHdr)
  | _ => none

/-- The decoder: the opcode is tested first, then RES and the unused fields (30_encoding.md R50;
60_exceptions.md R115). -/
def decode (v : Word) : Decoded :=
  match opcodeMap v with
  | none => .illegal .reservedOpcode
  | some (f, i) =>
    if resOf v == 0 && f.unusedAreZero v then .command i else .illegal .nonzeroField

/-- The command a result holds, if it is one. -/
def Decoded.command? : Decoded → Option Instr
  | .command i => some i
  | .illegal _ => none

/-- What the decoder reads from a row of the opcode table whose bits are `w` (one 32-bit word, numbered as
the bus numbers it); bits from `nbits` up are 0, and a number above 32 bits is no command word. -/
def decodeTableWord (nbits w : Nat) : Option Instr :=
  if w % 2 ^ nbits < 2 ^ 32 then (decode (BitVec.ofNat 32 (w % 2 ^ nbits))).command? else none

/-! ### The encoder -/

/-- A command word from its fields, RES being 0 (30_encoding.md R49). -/
def wordOf (opc : BitVec 8) (rd rs1 rs2 : BitVec 3) (sel : BitVec 1) : Word :=
  0#14 ++ sel ++ rs2 ++ rs1 ++ rd ++ opc

/-- The 3-bit field of an index. -/
def tField (r : TReg) : BitVec 3 := .ofFin r

/-- SEL of WIRE2INT. -/
def WireSrc.sel : WireSrc → BitVec 1
  | .w => 0
  | .rxts => 1
/-- SEL of SN2INT. -/
def SnSrc.sel : SnSrc → BitVec 1
  | .sn => 0
  | .rxcorr => 1
/-- SEL of INT2SN. -/
def SnDst.sel : SnDst → BitVec 1
  | .sn => 0
  | .ctxcorr => 1

/-- The one word of a command (30_encoding.md R51 to R53). -/
def encode : Instr → Word
  | .nop => wordOf 0x00 0 0 0 0
  | .norm rd rs1 => wordOf 0x01 (tField rd) (tField rs1) 0 0
  | .add rd rs1 rs2 => wordOf 0x02 (tField rd) (tField rs1) (tField rs2) 0
  | .sub rd rs1 rs2 => wordOf 0x03 (tField rd) (tField rs1) (tField rs2) 0
  | .halve rd rs1 => wordOf 0x04 (tField rd) (tField rs1) 0 0
  | .flog2 => wordOf 0x05 0 0 0 0
  | .int2wire rs1 => wordOf 0x08 0 (tField rs1) 0 0
  | .wire2int rd src => wordOf 0x09 (tField rd) 0 0 src.sel
  | .sn2int rd src => wordOf 0x0A (tField rd) 0 0 src.sel
  | .int2sn rs1 dst => wordOf 0x0B 0 (tField rs1) 0 dst.sel
  | .packSync => wordOf 0x20 0 0 0 0
  | .packDelayReq => wordOf 0x21 0 0 0 0
  | .packPdelayReq => wordOf 0x22 0 0 0 0
  | .packPdelayResp => wordOf 0x23 0 0 0 0
  | .packFollowUp => wordOf 0x28 0 0 0 0
  | .packDelayResp => wordOf 0x29 0 0 0 0
  | .packPdelayRespFu => wordOf 0x2A 0 0 0 0
  | .packAnnounce => wordOf 0x2B 0 0 0 0
  | .packManagement => wordOf 0x2D 0 0 0 0
  | .unpackSync => wordOf 0x30 0 0 0 0
  | .unpackDelayReq => wordOf 0x31 0 0 0 0
  | .unpackPdelayReq => wordOf 0x32 0 0 0 0
  | .unpackPdelayResp => wordOf 0x33 0 0 0 0
  | .unpackFollowUp => wordOf 0x38 0 0 0 0
  | .unpackDelayResp => wordOf 0x39 0 0 0 0
  | .unpackPdelayRespFu => wordOf 0x3A 0 0 0 0
  | .unpackAnnounce => wordOf 0x3B 0 0 0 0
  | .unpackManagement => wordOf 0x3D 0 0 0 0
  | .unpackHdr => wordOf 0x40 0 0 0 0

end Sys2Proof
end

