-- ==== Sys2Proof/Machine/State.lean ====
section
/-! DEFINITION. Everything the TNCU holds (10_state.md R13), the host's side of its bus as plain data, the
reasons a step can stop, and the state right after reset (70_reset_and_hazards.md R125, R126). -/

namespace Sys2Proof.Machine

/-- An InternalTime: two int32 patterns (10_state.md R14, 30_encoding.md R56). Their values are `toInt`. -/
structure InternalTime where
  /-- `T[i].sec`. -/
  sec : BitVec 32
  /-- `T[i].ns`. -/
  ns : BitVec 32
deriving DecidableEq, Repr

/-- A WireTimestamp: unsigned 48-bit seconds and 32-bit nanoseconds (10_state.md R19). -/
structure WireTimestamp where
  /-- The seconds. -/
  sec : BitVec 48
  /-- The nanoseconds. -/
  ns : BitVec 32
deriving DecidableEq, Repr

/-- STATUS (10_state.md R22). Its reserved bits read 0 and ignore writes, so the named fields are all it
holds; `Status.toWord` of Machine/Bus.lean is the 32-bit view. -/
structure Status where
  /-- Bit 0, FAIL: the last command failed and wrote no destination. -/
  fail : Bool
  /-- Bit 1, OVF: the last command's result seconds did not fit int32. -/
  ovf : Bool
  /-- Bit 2, ILL: the last command word was illegal. -/
  ill : Bool
  /-- Bits 7:4, CAUSE (60_exceptions.md R114). -/
  cause : BitVec 4
  /-- Bit 8, S_FAIL, write 1 to clear. -/
  sFail : Bool
  /-- Bit 9, S_OVF, write 1 to clear. -/
  sOvf : Bool
  /-- Bit 10, S_ILL, write 1 to clear. -/
  sIll : Bool
  /-- Bit 11, S_BUSERR, write 1 to clear. -/
  sBusErr : Bool
deriving DecidableEq, Repr

/-- The transmit header context (10_state.md R23). -/
structure Ctx where
  /-- transportSpecific. -/
  transport : BitVec 4
  /-- versionPTP. -/
  version : BitVec 4
  /-- domainNumber. -/
  domain : BitVec 8
  /-- logMessageInterval, the pattern of an int8. -/
  logint : BitVec 8
  /-- flagField. -/
  flags : BitVec 16
  /-- sequenceId. -/
  seq : BitVec 16
  /-- sourcePortIdentity.portNumber. -/
  port : BitVec 16
  /-- sourcePortIdentity.clockIdentity, the 8 bytes as one big-endian number. -/
  clkid : BitVec 64
  /-- correctionField, int64, in ScaledNanoseconds. -/
  corr : BitVec 64
deriving DecidableEq, Repr

/-- The transmit body payload (10_state.md R24). -/
structure Tx where
  /-- requestingPortIdentity.clockIdentity. -/
  reqclk : BitVec 64
  /-- requestingPortIdentity.portNumber. -/
  reqport : BitVec 16
  /-- currentUtcOffset, the pattern of an int16. -/
  utcoff : BitVec 16
  /-- grandmasterPriority1. -/
  pri1 : BitVec 8
  /-- grandmaster clockClass. -/
  cls : BitVec 8
  /-- grandmaster clockAccuracy. -/
  acc : BitVec 8
  /-- grandmaster offsetScaledLogVariance (`TX.var`). -/
  variance : BitVec 16
  /-- grandmasterPriority2. -/
  pri2 : BitVec 8
  /-- grandmasterIdentity. -/
  gmid : BitVec 64
  /-- stepsRemoved. -/
  steps : BitVec 16
  /-- timeSource. -/
  tsrc : BitVec 8
  /-- targetPortIdentity.clockIdentity. -/
  tgtclk : BitVec 64
  /-- targetPortIdentity.portNumber. -/
  tgtport : BitVec 16
  /-- startingBoundaryHops. -/
  sbh : BitVec 8
  /-- boundaryHops. -/
  bh : BitVec 8
  /-- actionField. -/
  action : BitVec 4
deriving DecidableEq, Repr

/-- The receive header record (10_state.md R25). -/
structure Rxh where
  /-- transportSpecific. -/
  transport : BitVec 4
  /-- messageType. -/
  msgtype : BitVec 4
  /-- versionPTP. -/
  version : BitVec 4
  /-- messageLength. -/
  length : BitVec 16
  /-- domainNumber. -/
  domain : BitVec 8
  /-- flagField. -/
  flags : BitVec 16
  /-- correctionField, int64. -/
  corr : BitVec 64
  /-- sourcePortIdentity.clockIdentity. -/
  clkid : BitVec 64
  /-- sourcePortIdentity.portNumber. -/
  port : BitVec 16
  /-- sequenceId. -/
  seq : BitVec 16
  /-- controlField. -/
  ctrl : BitVec 8
  /-- logMessageInterval, the pattern of an int8. -/
  logint : BitVec 8
deriving DecidableEq, Repr

/-- The receive body record (10_state.md R26). -/
structure Rx where
  /-- `RX.ts_sec`. -/
  tsSec : BitVec 48
  /-- `RX.ts_ns`. -/
  tsNs : BitVec 32
  /-- requestingPortIdentity.clockIdentity. -/
  reqclk : BitVec 64
  /-- requestingPortIdentity.portNumber. -/
  reqport : BitVec 16
  /-- currentUtcOffset. -/
  utcoff : BitVec 16
  /-- grandmasterPriority1. -/
  pri1 : BitVec 8
  /-- grandmaster clockClass. -/
  cls : BitVec 8
  /-- grandmaster clockAccuracy. -/
  acc : BitVec 8
  /-- grandmaster offsetScaledLogVariance (`RX.var`). -/
  variance : BitVec 16
  /-- grandmasterPriority2. -/
  pri2 : BitVec 8
  /-- grandmasterIdentity. -/
  gmid : BitVec 64
  /-- stepsRemoved. -/
  steps : BitVec 16
  /-- timeSource. -/
  tsrc : BitVec 8
  /-- targetPortIdentity.clockIdentity. -/
  tgtclk : BitVec 64
  /-- targetPortIdentity.portNumber. -/
  tgtport : BitVec 16
  /-- startingBoundaryHops. -/
  sbh : BitVec 8
  /-- boundaryHops. -/
  bh : BitVec 8
  /-- actionField. -/
  action : BitVec 4
deriving DecidableEq, Repr

/-- The width of a bus access (20_memory.md R32: `n` in 1, 2, 4 bytes). -/
inductive AccessSize where
  | b1 | b2 | b4
deriving DecidableEq, Repr

/-- What the host can do to the unit, and nothing else (70_reset_and_hazards.md R134). -/
inductive HostEvent where
  /-- `MemRead(addr, n)`. -/
  | read (addr : BitVec 10) (n : AccessSize)
  /-- `MemWrite(addr, n, v)`; a 1- or 2-byte write carries the low 8 or 16 bits of `v`. -/
  | write (addr : BitVec 10) (n : AccessSize) (v : Word)
  /-- The system asserts and releases reset (R125). -/
  | reset
deriving DecidableEq, Repr

/-- What the host gets back from an access (70_reset_and_hazards.md R134; 20_memory.md R34). -/
inductive BusResponse where
  /-- A write completed; it returns nothing. -/
  | written
  /-- A legal read and its data. -/
  | readData (v : Word)
  /-- The error response to a write. -/
  | writeError
  /-- The error response to a read, with the data it returns. -/
  | readError (v : Word)
deriving DecidableEq, Repr

/-- The ways the machine can stop: none. Every command ends and every access is answered
(60_exceptions.md R109, 70_reset_and_hazards.md R134, R135), so this type has no constructor. -/
inductive Fault where
deriving DecidableEq, Repr

/-- Why an instruction has no meaning in this model. -/
inductive Refusal where
  /-- Raised only by an arm of `exec` for an instruction not modelled yet (none is left). Safe: the
  machine stops where the hardware goes on. -/
  | notModelled (mnemonic : String)
deriving DecidableEq, Repr

/-- The whole state. The fields to `ibuf` are those of 10_state.md R13; the last three are the model's own:
the number of resets, which selects the free value of unwritten buffer bytes (log 4), and the host's side
of the bus (logs 2 and 3). -/
structure State where
  /-- The InternalTime registers T0 to T7 (R14). -/
  t : Vector InternalTime 8
  /-- `SN`, int64 (R18). -/
  sn : BitVec 64
  /-- `W` (R19). -/
  w : WireTimestamp
  /-- `U_IN` (R20). -/
  uIn : BitVec 32
  /-- `L_OUT`, an int32 pattern (R20). -/
  lOut : BitVec 32
  /-- `CMD` (R21). -/
  cmd : BitVec 32
  /-- `STATUS` (R22). -/
  status : Status
  /-- `CTX` (R23). -/
  ctx : Ctx
  /-- `TX` (R24). -/
  tx : Tx
  /-- `RXH` (R25). -/
  rxh : Rxh
  /-- `RX` (R26). -/
  rx : Rx
  /-- `OBUF` (R27): the bytes written since reset, by offset. -/
  obuf : List Host.Cell
  /-- `IBUF` (R27): the bytes written since reset, by offset. -/
  ibuf : List Host.Cell
  /-- MODEL's own: how many times the host has reset the unit. -/
  resets : Nat
  /-- MODEL's own: the host's interactions still to come, oldest first. -/
  pending : List HostEvent
  /-- MODEL's own: the answer to the host's last access. -/
  response : Option BusResponse
deriving DecidableEq, Repr

/-- The state when reset is released (70_reset_and_hazards.md R125): every register 0; no buffer byte
written (R126); nothing pending. -/
def State.reset : State where
  t := Vector.replicate 8 ⟨0, 0⟩
  sn := 0
  w := ⟨0, 0⟩
  uIn := 0
  lOut := 0
  cmd := 0
  status := ⟨false, false, false, 0, false, false, false, false⟩
  ctx := ⟨0, 0, 0, 0, 0, 0, 0, 0, 0⟩
  tx := ⟨0, 0, 0, 0, 0, 0, 0, 0, 0, 0, 0, 0, 0, 0, 0, 0⟩
  rxh := ⟨0, 0, 0, 0, 0, 0, 0, 0, 0, 0, 0, 0⟩
  rx := ⟨0, 0, 0, 0, 0, 0, 0, 0, 0, 0, 0, 0, 0, 0, 0, 0, 0, 0⟩
  obuf := []
  ibuf := []
  resets := 0
  pending := []
  response := none

end Sys2Proof.Machine
end

