-- ==== Sys2Proof/Machine/Ops.lean ====
section
/-! DEFINITION. The named operations over the register file, the message buffers and STATUS that the
meanings share: 00_scope.md R9 to R11, 10_state.md R14, R22, R27, 60_exceptions.md R110 to R113. -/

namespace Sys2Proof.Machine

/-! ### The InternalTime registers -/

/-- `T[i]` (00_scope.md R10). -/
def State.getT (s : State) (i : TReg) : InternalTime := s.t[i]

/-- `T[i] <- x`, both halves at once (00_scope.md R10). -/
def State.setT (s : State) (i : TReg) (x : InternalTime) : State := { s with t := s.t.set i x }

/-- `total(t)`, the exact nanoseconds of an InternalTime (00_scope.md R11). -/
def InternalTime.total (x : InternalTime) : Int := x.sec.toInt * Config.nsPerS + x.ns.toInt

/-- `canon(X)` (00_scope.md R11): quotient and remainder by 10^9, the division truncating toward zero. -/
def canon (X : Int) : Int × Int :=
  (X.tdiv Config.nsPerS, X - X.tdiv Config.nsPerS * Config.nsPerS)

/-- The pair of int32 patterns of two integers (00_scope.md R9: `wrap_32` keeps the low 32 bits). -/
def InternalTime.ofInts (sec ns : Int) : InternalTime := ⟨BitVec.ofInt 32 sec, BitVec.ofInt 32 ns⟩

/-! ### The message buffers -/

/-- The byte listed for an offset, none if nobody has written it. -/
def cellGet : List Host.Cell → Nat → Option Byte
  | [], _ => none
  | (a, x) :: rest, k => if k = a then some x else cellGet rest k

/-- List a byte for an offset, keeping the offsets strictly rising. -/
def cellSet : List Host.Cell → Nat → Byte → List Host.Cell
  | [], k, x => [(k, x)]
  | (a, y) :: rest, k, x =>
    if k < a then (k, x) :: (a, y) :: rest
    else if k = a then (k, x) :: rest
    else (a, y) :: cellSet rest k x

/-- The canonical form of a buffer: offsets strictly rising and within the buffer. An unlisted byte has no
value of its own (it reads as the free value), so a listed byte never repeats what an unlisted one holds. -/
abbrev Memory.wf (m : List Host.Cell) : Prop :=
  m.Pairwise (fun a b => a.1 < b.1) ∧ ∀ c ∈ m, c.1 < Config.bufSize

/-- The bytes of a buffer written since reset. -/
def State.buf (s : State) : BufId → List Host.Cell
  | .obuf => s.obuf
  | .ibuf => s.ibuf

/-- The state with a buffer's bytes replaced. -/
def State.setBuf (s : State) (b : BufId) (m : List Host.Cell) : State :=
  match b with
  | .obuf => { s with obuf := m }
  | .ibuf => { s with ibuf := m }

/-- What a buffer byte reads as: the byte written since reset, else the free value, the same at every read
until the byte is written (70_reset_and_hazards.md R126). -/
def State.byteAt (s : State) (b : BufId) (off : Nat) : Byte :=
  (cellGet (s.buf b) off).getD (Config.unwrittenByte b s.resets off)

/-- List consecutive bytes from an offset on. -/
def cellsSet (m : List Host.Cell) (off : Nat) : List Byte → List Host.Cell
  | [] => m
  | x :: xs => cellsSet (cellSet m off x) (off + 1) xs

/-- Write consecutive buffer bytes from an offset on. -/
def State.setBytes (s : State) (b : BufId) (off : Nat) (xs : List Byte) : State :=
  s.setBuf b (cellsSet (s.buf b) off xs)

/-- The low `n` bytes of a number, most significant first (20_memory.md R39: the wire is big-endian). -/
def beBytes : (n v : Nat) → List Byte
  | 0, _ => []
  | n + 1, v => BitVec.ofNat 8 (v / 256 ^ n) :: beBytes n v

/-- The low `n` bytes of a number, least significant first (20_memory.md R32: the bus lanes are
little-endian). -/
def leBytes : (n v : Nat) → List Byte
  | 0, _ => []
  | n + 1, v => BitVec.ofNat 8 v :: leBytes n (v / 256)

/-- `BufRead(B, off, n)`: `n` bytes as one big-endian unsigned number (00_scope.md R10). -/
def State.bufRead (s : State) (b : BufId) (off : Nat) : Nat → Nat
  | 0 => 0
  | n + 1 => s.bufRead b off n * 256 + (s.byteAt b (off + n)).toNat

/-- `BufWrite(B, off, n, v)`: the low `8n` bits of `v`, most significant byte at `off` (00_scope.md R10). -/
def State.bufWrite (s : State) (b : BufId) (off n v : Nat) : State := s.setBytes b off (beBytes n v)

/-- The lanes of a bus read: `n` bytes as one little-endian number (20_memory.md R32). -/
def State.laneRead (s : State) (b : BufId) (off : Nat) : Nat → Nat
  | 0 => 0
  | n + 1 => (s.byteAt b off).toNat + 256 * s.laneRead b (off + 1) n

/-- The lanes of a bus write: the byte at `off + k` travels in bits `8k+7:8k` (20_memory.md R32). -/
def State.laneWrite (s : State) (b : BufId) (off n v : Nat) : State := s.setBytes b off (leBytes n v)

/-! ### STATUS and the conditions (60_exceptions.md R109 to R113)

The unit has no exception entry: a condition is recorded in STATUS and the command ends (R109). These are
the only ways STATUS is written by a command. -/

/-- The start of every command: FAIL, OVF, ILL and CAUSE become 0, the sticky bits stay (R113). -/
def Status.beginCommand (st : Status) : Status :=
  { st with fail := false, ovf := false, ill := false, cause := 0 }

/-- Record `Illegal(c)` (R110, R113). -/
def Status.illegal (st : Status) (c : BitVec 4) : Status :=
  { st with ill := true, cause := c, sIll := true }

/-- Record `Fail(c)` (R111, R113). -/
def Status.failed (st : Status) (c : BitVec 4) : Status :=
  { st with fail := true, cause := c, sFail := true }

/-- Record `Ovf(c)` (R112, R113). -/
def Status.overflowed (st : Status) (c : BitVec 4) : Status :=
  { st with ovf := true, cause := c, sOvf := true }

/-- The state at the start of a command (30_encoding.md R50). -/
def State.beginCommand (s : State) : State := { s with status := s.status.beginCommand }

/-- `raise Illegal(c)`: nothing but STATUS changes (R110). -/
def State.raiseIllegal (s : State) (c : BitVec 4) : State := { s with status := s.status.illegal c }

/-- `raise Fail(c)`: nothing but STATUS changes; the command writes no destination (R111). -/
def State.raiseFail (s : State) (c : BitVec 4) : State := { s with status := s.status.failed c }

/-- `flag Ovf(c)`: the command goes on to write its result (R112). -/
def State.flagOvf (s : State) (c : BitVec 4) : State := { s with status := s.status.overflowed c }

end Sys2Proof.Machine
end

