-- ==== Sys2Proof/Machine/Operands.lean ====
section
/-! DEFINITION. The operand forms that SEL selects (30_encoding.md R52). The other operands are `T[rd]`,
`T[rs1]` and `T[rs2]` (`State.getT`, `State.setT`) and the fixed registers each rule names. -/

namespace Sys2Proof.Machine

/-- The source of WIRE2INT: `W`, or `(RX.ts_sec, RX.ts_ns)` (30_encoding.md R52, 41_conversion.md R84). -/
def State.wireSource (s : State) : WireSrc → WireTimestamp
  | .w => s.w
  | .rxts => ⟨s.rx.tsSec, s.rx.tsNs⟩

/-- The source of SN2INT: `SN`, or `RXH.corr` (30_encoding.md R52, 41_conversion.md R81). -/
def State.snSource (s : State) : SnSrc → BitVec 64
  | .sn => s.sn
  | .rxcorr => s.rxh.corr

/-- The destination of INT2SN: `SN`, or `CTX.corr` (30_encoding.md R52, 41_conversion.md R82). -/
def State.setSnDest (s : State) (d : SnDst) (v : BitVec 64) : State :=
  match d with
  | .sn => { s with sn := v }
  | .ctxcorr => { s with ctx := { s.ctx with corr := v } }

end Sys2Proof.Machine
end

