-- ==== Sys2Proof/Machine/Flags.lean ====
section
/-! DEFINITION. The tests that decide the OVF and FAIL bits, and the cause codes (60_exceptions.md R114). -/

namespace Sys2Proof.Machine

/-- An integer fits int32 (40_time_arith.md R73: the OVF test on the result seconds). -/
def fitsInt32 (q : Int) : Bool := decide (-2 ^ 31 ≤ q ∧ q ≤ 2 ^ 31 - 1)

/-- An integer fits int64 (41_conversion.md R82: the FAIL test of INT2SN). -/
def fitsInt64 (v : Int) : Bool := decide (-2 ^ 63 ≤ v ∧ v ≤ 2 ^ 63 - 1)

/-- Both halves are non-negative (41_conversion.md R83: the FAIL test of INT2WIRE). -/
def InternalTime.nonneg (x : InternalTime) : Bool := decide (0 ≤ x.sec.toInt ∧ 0 ≤ x.ns.toInt)

/-- The wire seconds do not exceed 2^31 - 1, all 48 bits tested (41_conversion.md R84: the FAIL test of
WIRE2INT). -/
def WireTimestamp.secInRange (x : WireTimestamp) : Bool := decide (x.sec.toNat ≤ 2 ^ 31 - 1)

/-- CAUSE of an illegal word: 1 reserved opcode, 2 nonzero field (60_exceptions.md R114). -/
def illegalCause : IllegalWord → BitVec 4
  | .reservedOpcode => 1
  | .nonzeroField => 2

/-- CAUSE 3: InternalTime seconds or nanoseconds negative (60_exceptions.md R114). -/
def causeNegative : BitVec 4 := 3
/-- CAUSE 4: wire seconds above 2^31 - 1 (60_exceptions.md R114). -/
def causeWireRange : BitVec 4 := 4
/-- CAUSE 5: result seconds outside int32 (60_exceptions.md R114). -/
def causeSeconds : BitVec 4 := 5
/-- CAUSE 6: total times 2^16 outside int64 (60_exceptions.md R114). -/
def causeScaled : BitVec 4 := 6

end Sys2Proof.Machine
end

