-- ==== Sys2Proof/Machine/Convert.lean ====
section
/-! DEFINITION. The conversion commands SN2INT, INT2SN, INT2WIRE and WIRE2INT (41_conversion.md R81 to
R84). A command that fails writes no destination (60_exceptions.md R111). -/

namespace Sys2Proof.Machine

/-- Scaled nanoseconds to InternalTime (41_conversion.md R81): the magnitude shifted right by 16, split by
10^9, the sign given back to both halves. -/
def snToInternal (x : BitVec 64) : InternalTime :=
  let m := x.toInt.natAbs
  let k := m >>> Config.snFrac
  let sec : Int := (k : Int).tdiv Config.nsPerS
  let ns : Int := k - sec * Config.nsPerS
  if x.toInt < 0 then .ofInts (-sec) (-ns) else .ofInts sec ns

/-- The exact value INT2SN writes: total times 2^16 (41_conversion.md R82). -/
def scaledTotal (x : InternalTime) : Int := x.total * 2 ^ Config.snFrac

/-- SN2INT tD, sn or rxcorr (41_conversion.md R81). -/
def execSn2int (rd : TReg) (src : SnSrc) (s : State) : Host.Outcome State Fault Refusal :=
  .next (s.beginCommand.setT rd (snToInternal (s.snSource src)))

/-- INT2SN tS, sn or ctxcorr (41_conversion.md R82): Fail(6) when the value does not fit int64. -/
def execInt2sn (rs1 : TReg) (dst : SnDst) (s : State) : Host.Outcome State Fault Refusal :=
  let v := scaledTotal (s.getT rs1)
  .next (if fitsInt64 v then s.beginCommand.setSnDest dst (BitVec.ofInt 64 v)
    else s.beginCommand.raiseFail causeScaled)

/-- INT2WIRE tS (41_conversion.md R83): Fail(3) when either half is negative; no normalization. -/
def execInt2wire (rs1 : TReg) (s : State) : Host.Outcome State Fault Refusal :=
  let x := s.getT rs1
  .next (if x.nonneg then { s.beginCommand with w := ⟨x.sec.setWidth 48, x.ns⟩ }
    else s.beginCommand.raiseFail causeNegative)

/-- WIRE2INT tD, w or rxts (41_conversion.md R84): Fail(4) when the 48-bit seconds exceed 2^31 - 1; the
nanoseconds pattern is copied. -/
def execWire2int (rd : TReg) (src : WireSrc) (s : State) : Host.Outcome State Fault Refusal :=
  let x := s.wireSource src
  .next (if x.secInRange then s.beginCommand.setT rd ⟨x.sec.setWidth 32, x.ns⟩
    else s.beginCommand.raiseFail causeWireRange)

end Sys2Proof.Machine
end

