-- ==== Sys2Proof/Machine/Pack.lean ====
section
/-! DEFINITION. The framer: PackHeader, PackTS and PackPortId of 42_framer_pack.md R86, and the nine PACK
commands (R87 to R95). A message is written as the list of `BufWrite`s its rule gives. -/

namespace Sys2Proof.Machine

/-- One `BufWrite(OBUF, off, n, v)`. -/
structure FieldWrite where
  /-- Offset of the first byte. -/
  off : Nat
  /-- Length in bytes. -/
  n : Nat
  /-- The number written. -/
  v : Nat
deriving DecidableEq, Repr

/-- The `BufWrite`s of a message, in order. -/
def State.writeFields (s : State) (fs : List FieldWrite) : State :=
  fs.foldl (fun s f => s.bufWrite .obuf f.off f.n f.v) s

/-- PackHeader(t) (42_framer_pack.md R86): `type` is the messageType code, `len` the messageLength and
`ctrl` the controlField that the command's type fixes. -/
def packHeader (c : Ctx) (type len ctrl : Nat) : List FieldWrite :=
  [⟨0, 1, c.transport.toNat * 16 + type⟩,
   ⟨1, 1, c.version.toNat⟩,
   ⟨2, 2, len⟩,
   ⟨4, 1, c.domain.toNat⟩,
   ⟨5, 1, 0⟩,
   ⟨6, 2, c.flags.toNat⟩,
   ⟨8, 8, c.corr.toNat⟩,
   ⟨16, 4, 0⟩,
   ⟨20, 8, c.clkid.toNat⟩,
   ⟨28, 2, c.port.toNat⟩,
   ⟨30, 2, c.seq.toNat⟩,
   ⟨32, 1, ctrl⟩,
   ⟨33, 1, c.logint.toNat⟩]

/-- PackTS(o) (42_framer_pack.md R86). -/
def packTs (o : Nat) (w : WireTimestamp) : List FieldWrite :=
  [⟨o, 6, w.sec.toNat⟩, ⟨o + 6, 4, w.ns.toNat⟩]

/-- PackPortId(o, c, p) (42_framer_pack.md R86). -/
def packPortId (o : Nat) (clk : BitVec 64) (port : BitVec 16) : List FieldWrite :=
  [⟨o, 8, clk.toNat⟩, ⟨o + 8, 2, port.toNat⟩]

/-- The Announce body after its timestamp (42_framer_pack.md R87, 30_encoding.md R69). -/
def packAnnounceBody (x : Tx) : List FieldWrite :=
  [⟨44, 2, x.utcoff.toNat⟩, ⟨46, 1, 0⟩,
   ⟨47, 1, x.pri1.toNat⟩, ⟨48, 1, x.cls.toNat⟩, ⟨49, 1, x.acc.toNat⟩,
   ⟨50, 2, x.variance.toNat⟩, ⟨52, 1, x.pri2.toNat⟩, ⟨53, 8, x.gmid.toNat⟩,
   ⟨61, 2, x.steps.toNat⟩, ⟨63, 1, x.tsrc.toNat⟩]

/-- The Management body after its target port identity (42_framer_pack.md R95, 30_encoding.md R70). -/
def packManagementBody (x : Tx) : List FieldWrite :=
  [⟨44, 1, x.sbh.toNat⟩, ⟨45, 1, x.bh.toNat⟩, ⟨46, 1, x.action.toNat⟩, ⟨47, 1, 0⟩]

/-- PACK.SYNC (42_framer_pack.md R88; length R63, type R60, controlField R61). -/
def execPackSync (s : State) : Host.Outcome State Fault Refusal :=
  .next (s.beginCommand.writeFields (packHeader s.ctx 0x0 44 0x00 ++ packTs 34 s.w))

/-- PACK.DELAYREQ (42_framer_pack.md R90). -/
def execPackDelayReq (s : State) : Host.Outcome State Fault Refusal :=
  .next (s.beginCommand.writeFields (packHeader s.ctx 0x1 44 0x01 ++ packTs 34 s.w))

/-- PACK.PDELAYREQ (42_framer_pack.md R92): ten reserved bytes of 0 after the timestamp. -/
def execPackPdelayReq (s : State) : Host.Outcome State Fault Refusal :=
  .next (s.beginCommand.writeFields
    (packHeader s.ctx 0x2 54 0x05 ++ packTs 34 s.w ++ [⟨44, 10, 0⟩]))

/-- PACK.PDELAYRESP (42_framer_pack.md R93). -/
def execPackPdelayResp (s : State) : Host.Outcome State Fault Refusal :=
  .next (s.beginCommand.writeFields
    (packHeader s.ctx 0x3 54 0x05 ++ packTs 34 s.w ++ packPortId 44 s.tx.reqclk s.tx.reqport))

/-- PACK.FOLLOWUP (42_framer_pack.md R89). -/
def execPackFollowUp (s : State) : Host.Outcome State Fault Refusal :=
  .next (s.beginCommand.writeFields (packHeader s.ctx 0x8 44 0x02 ++ packTs 34 s.w))

/-- PACK.DELAYRESP (42_framer_pack.md R91). -/
def execPackDelayResp (s : State) : Host.Outcome State Fault Refusal :=
  .next (s.beginCommand.writeFields
    (packHeader s.ctx 0x9 54 0x03 ++ packTs 34 s.w ++ packPortId 44 s.tx.reqclk s.tx.reqport))

/-- PACK.PDELAYRESPFU (42_framer_pack.md R94). -/
def execPackPdelayRespFu (s : State) : Host.Outcome State Fault Refusal :=
  .next (s.beginCommand.writeFields
    (packHeader s.ctx 0xA 54 0x05 ++ packTs 34 s.w ++ packPortId 44 s.tx.reqclk s.tx.reqport))

/-- PACK.ANNOUNCE (42_framer_pack.md R87). -/
def execPackAnnounce (s : State) : Host.Outcome State Fault Refusal :=
  .next (s.beginCommand.writeFields
    (packHeader s.ctx 0xB 64 0x05 ++ packTs 34 s.w ++ packAnnounceBody s.tx))

/-- PACK.MANAGEMENT (42_framer_pack.md R95): no timestamp; `W` is not read. -/
def execPackManagement (s : State) : Host.Outcome State Fault Refusal :=
  .next (s.beginCommand.writeFields
    (packHeader s.ctx 0xD 48 0x04 ++ packPortId 34 s.tx.tgtclk s.tx.tgtport
      ++ packManagementBody s.tx))

end Sys2Proof.Machine
end

