-- ==== Sys2Proof/Machine/Time.lean ====
section
/-! DEFINITION. The time arithmetic commands NOP, NORM, ADD, SUB, HALVE and FLOG2 (40_time_arith.md R72 to
R79). Every meaning begins with the clearing of the per-command STATUS fields (60_exceptions.md R113). -/

namespace Sys2Proof.Machine

/-- The common end of NORM, ADD and SUB (40_time_arith.md R73 to R75): flag Ovf(5) when the seconds of
`canon(X)` do not fit int32, and write them wrapped, with the nanoseconds, in any case (R78). -/
def State.writeNormalized (s : State) (rd : TReg) (X : Int) : State :=
  let (q, r) := canon X
  (if fitsInt32 q then s else s.flagOvf causeSeconds).setT rd (.ofInts q r)

/-- The exact total that ADD normalizes: component-wise sums, no wrap (40_time_arith.md R74). -/
def addTotal (a b : InternalTime) : Int :=
  (a.sec.toInt + b.sec.toInt) * Config.nsPerS + (a.ns.toInt + b.ns.toInt)

/-- The exact total that SUB normalizes: component-wise differences, no wrap (40_time_arith.md R75). -/
def subTotal (a b : InternalTime) : Int :=
  (a.sec.toInt - b.sec.toInt) * Config.nsPerS + (a.ns.toInt - b.ns.toInt)

/-- The exact total that HALVE normalizes (40_time_arith.md R76): the odd residual second goes into the
nanoseconds, and both divisions by 2 truncate toward zero. -/
def halfTotal (x : InternalTime) : Int :=
  let rs := x.sec.toInt.tmod 2
  let n1 := x.ns.toInt + rs * Config.nsPerS
  let s1 := x.sec.toInt.tdiv 2
  let n2 := n1.tdiv 2
  s1 * Config.nsPerS + n2

/-- The highest set bit among bits `k` down to 0. -/
def highestSet (u : Word) : Nat → Option Nat
  | 0 => if u.getLsbD 0 then some 0 else none
  | k + 1 => if u.getLsbD (k + 1) then some (k + 1) else highestSet u k

/-- `floorLog2` (40_time_arith.md R77): -1 for 0, else the index of the highest set bit. -/
def floorLog2 (u : Word) : Int :=
  match highestSet u 31 with
  | none => -1
  | some k => k

/-- NOP (40_time_arith.md R72). -/
def execNop (s : State) : Host.Outcome State Fault Refusal :=
  .next s.beginCommand

/-- NORM tD, tS (40_time_arith.md R73). -/
def execNorm (rd rs1 : TReg) (s : State) : Host.Outcome State Fault Refusal :=
  .next (s.beginCommand.writeNormalized rd (s.getT rs1).total)

/-- ADD tD, tS1, tS2 (40_time_arith.md R74). -/
def execAdd (rd rs1 rs2 : TReg) (s : State) : Host.Outcome State Fault Refusal :=
  .next (s.beginCommand.writeNormalized rd (addTotal (s.getT rs1) (s.getT rs2)))

/-- SUB tD, tS1, tS2 (40_time_arith.md R75). -/
def execSub (rd rs1 rs2 : TReg) (s : State) : Host.Outcome State Fault Refusal :=
  .next (s.beginCommand.writeNormalized rd (subTotal (s.getT rs1) (s.getT rs2)))

/-- HALVE tD, tS (40_time_arith.md R76); it raises no condition. -/
def execHalve (rd rs1 : TReg) (s : State) : Host.Outcome State Fault Refusal :=
  let (q, r) := canon (halfTotal (s.getT rs1))
  .next (s.beginCommand.setT rd (.ofInts q r))

/-- FLOG2 (40_time_arith.md R77). -/
def execFlog2 (s : State) : Host.Outcome State Fault Refusal :=
  .next { s.beginCommand with lOut := BitVec.ofInt 32 (floorLog2 s.uIn) }

end Sys2Proof.Machine
end

