-- ==== Sys2Proof/Machine/Unpack.lean ====
section
/-! DEFINITION. The parser: UnpackTS and UnpackReqId of 43_framer_unpack.md R97, UNPACKHDR (R98) and the
nine body commands (R99 to R107). Nothing is checked (R97, R108). -/

namespace Sys2Proof.Machine

/-- `BufRead(IBUF, off, n)` as the `8n`-bit field it fills. -/
def State.ibufField (s : State) (off n width : Nat) : BitVec width :=
  BitVec.ofNat width (s.bufRead .ibuf off n)

/-- UnpackTS(o) (43_framer_unpack.md R97). -/
def State.unpackTs (s : State) (o : Nat) (r : Rx) : Rx :=
  { r with tsSec := s.ibufField o 6 48, tsNs := s.ibufField (o + 6) 4 32 }

/-- UnpackReqId(o) (43_framer_unpack.md R97). -/
def State.unpackReqId (s : State) (o : Nat) (r : Rx) : Rx :=
  { r with reqclk := s.ibufField o 8 64, reqport := s.ibufField (o + 8) 2 16 }

/-- The header record that UNPACKHDR reads (43_framer_unpack.md R98, 30_encoding.md R62). -/
def State.unpackHeader (s : State) : Rxh :=
  let b0 : BitVec 8 := s.ibufField 0 1 8
  let b1 : BitVec 8 := s.ibufField 1 1 8
  { transport := b0.extractLsb' 4 4
    msgtype := b0.extractLsb' 0 4
    version := b1.extractLsb' 0 4
    length := s.ibufField 2 2 16
    domain := s.ibufField 4 1 8
    flags := s.ibufField 6 2 16
    corr := s.ibufField 8 8 64
    clkid := s.ibufField 20 8 64
    port := s.ibufField 28 2 16
    seq := s.ibufField 30 2 16
    ctrl := s.ibufField 32 1 8
    logint := s.ibufField 33 1 8 }

/-- The Announce fields after the timestamp (43_framer_unpack.md R99, 30_encoding.md R69). -/
def State.unpackAnnounceBody (s : State) (r : Rx) : Rx :=
  { r with
    utcoff := s.ibufField 44 2 16
    pri1 := s.ibufField 47 1 8
    cls := s.ibufField 48 1 8
    acc := s.ibufField 49 1 8
    variance := s.ibufField 50 2 16
    pri2 := s.ibufField 52 1 8
    gmid := s.ibufField 53 8 64
    steps := s.ibufField 61 2 16
    tsrc := s.ibufField 63 1 8 }

/-- The Management fields (43_framer_unpack.md R107, 30_encoding.md R70). -/
def State.unpackManagementBody (s : State) (r : Rx) : Rx :=
  { r with
    tgtclk := s.ibufField 34 8 64
    tgtport := s.ibufField 42 2 16
    sbh := s.ibufField 44 1 8
    bh := s.ibufField 45 1 8
    action := (s.ibufField 46 1 8).extractLsb' 0 4 }

/-- UNPACKHDR (43_framer_unpack.md R98): every field of `RXH`; `RX` is not changed. -/
def execUnpackHdr (s : State) : Host.Outcome State Fault Refusal :=
  .next { s.beginCommand with rxh := s.unpackHeader }

/-- UNPACK.SYNC (43_framer_unpack.md R100). -/
def execUnpackSync (s : State) : Host.Outcome State Fault Refusal :=
  .next { s.beginCommand with rx := s.unpackTs 34 s.rx }

/-- UNPACK.DELAYREQ (43_framer_unpack.md R102). -/
def execUnpackDelayReq (s : State) : Host.Outcome State Fault Refusal :=
  .next { s.beginCommand with rx := s.unpackTs 34 s.rx }

/-- UNPACK.PDELAYREQ (43_framer_unpack.md R104): bytes 44 to 53 are ignored. -/
def execUnpackPdelayReq (s : State) : Host.Outcome State Fault Refusal :=
  .next { s.beginCommand with rx := s.unpackTs 34 s.rx }

/-- UNPACK.PDELAYRESP (43_framer_unpack.md R105). -/
def execUnpackPdelayResp (s : State) : Host.Outcome State Fault Refusal :=
  .next { s.beginCommand with rx := s.unpackReqId 44 (s.unpackTs 34 s.rx) }

/-- UNPACK.FOLLOWUP (43_framer_unpack.md R101). -/
def execUnpackFollowUp (s : State) : Host.Outcome State Fault Refusal :=
  .next { s.beginCommand with rx := s.unpackTs 34 s.rx }

/-- UNPACK.DELAYRESP (43_framer_unpack.md R103). -/
def execUnpackDelayResp (s : State) : Host.Outcome State Fault Refusal :=
  .next { s.beginCommand with rx := s.unpackReqId 44 (s.unpackTs 34 s.rx) }

/-- UNPACK.PDELAYRESPFU (43_framer_unpack.md R106). -/
def execUnpackPdelayRespFu (s : State) : Host.Outcome State Fault Refusal :=
  .next { s.beginCommand with rx := s.unpackReqId 44 (s.unpackTs 34 s.rx) }

/-- UNPACK.ANNOUNCE (43_framer_unpack.md R99). -/
def execUnpackAnnounce (s : State) : Host.Outcome State Fault Refusal :=
  .next { s.beginCommand with rx := s.unpackAnnounceBody (s.unpackTs 34 s.rx) }

/-- UNPACK.MANAGEMENT (43_framer_unpack.md R107): `RX.ts_*` is not written. -/
def execUnpackManagement (s : State) : Host.Outcome State Fault Refusal :=
  .next { s.beginCommand with rx := s.unpackManagementBody s.rx }

end Sys2Proof.Machine
end

