-- ==== Sys2Proof/Machine/Dispatch.lean ====
section
/-! DEFINITION. One arm per command (30_encoding.md R53). -/

namespace Sys2Proof.Machine

/-- What a legal command does to the state (30_encoding.md R50, from the clearing of STATUS on). -/
def exec (i : Instr) (s : State) : Host.Outcome State Fault Refusal :=
  match i with
  | .nop => Sys2Proof.Machine.execNop s
  | .norm rd rs1 => Sys2Proof.Machine.execNorm rd rs1 s
  | .add rd rs1 rs2 => Sys2Proof.Machine.execAdd rd rs1 rs2 s
  | .sub rd rs1 rs2 => Sys2Proof.Machine.execSub rd rs1 rs2 s
  | .halve rd rs1 => Sys2Proof.Machine.execHalve rd rs1 s
  | .flog2 => Sys2Proof.Machine.execFlog2 s
  | .int2wire rs1 => Sys2Proof.Machine.execInt2wire rs1 s
  | .wire2int rd src => Sys2Proof.Machine.execWire2int rd src s
  | .sn2int rd src => Sys2Proof.Machine.execSn2int rd src s
  | .int2sn rs1 dst => Sys2Proof.Machine.execInt2sn rs1 dst s
  | .packSync => Sys2Proof.Machine.execPackSync s
  | .packDelayReq => Sys2Proof.Machine.execPackDelayReq s
  | .packPdelayReq => Sys2Proof.Machine.execPackPdelayReq s
  | .packPdelayResp => Sys2Proof.Machine.execPackPdelayResp s
  | .packFollowUp => Sys2Proof.Machine.execPackFollowUp s
  | .packDelayResp => Sys2Proof.Machine.execPackDelayResp s
  | .packPdelayRespFu => Sys2Proof.Machine.execPackPdelayRespFu s
  | .packAnnounce => Sys2Proof.Machine.execPackAnnounce s
  | .packManagement => Sys2Proof.Machine.execPackManagement s
  | .unpackSync => Sys2Proof.Machine.execUnpackSync s
  | .unpackDelayReq => Sys2Proof.Machine.execUnpackDelayReq s
  | .unpackPdelayReq => Sys2Proof.Machine.execUnpackPdelayReq s
  | .unpackPdelayResp => Sys2Proof.Machine.execUnpackPdelayResp s
  | .unpackFollowUp => Sys2Proof.Machine.execUnpackFollowUp s
  | .unpackDelayResp => Sys2Proof.Machine.execUnpackDelayResp s
  | .unpackPdelayRespFu => Sys2Proof.Machine.execUnpackPdelayRespFu s
  | .unpackAnnounce => Sys2Proof.Machine.execUnpackAnnounce s
  | .unpackManagement => Sys2Proof.Machine.execUnpackManagement s
  | .unpackHdr => Sys2Proof.Machine.execUnpackHdr s

end Sys2Proof.Machine
end

