-- ==== Sys2Proof/Machine/Bus.lean ====
section
/-! DEFINITION. The host bus: the register map (10_state.md R28), legal accesses and bus errors
(20_memory.md R32 to R38), the performing of a command word (30_encoding.md R50), and reset
(70_reset_and_hazards.md R125, R126). -/

namespace Sys2Proof.Machine

/-- The register words of the window (10_state.md R28); the `T` words carry their index. -/
inductive RegWord where
  | tSec (i : TReg)
  | tNs (i : TReg)
  | cmd | status | uIn | lOut | snLo | snHi
  | wSecLo | wSecHi | wNs | ctxCfg | ctxFlags | ctxSeq
  | ctxPort | ctxClkidHi | ctxClkidLo | ctxCorrLo | ctxCorrHi | txReqclkHi
  | txReqclkLo | txReqport | txAnn0 | txAnn1 | txGmidHi | txGmidLo
  | txAnn2 | txTgtclkHi | txTgtclkLo | txMgmt0 | txMgmt1 | rxhCfg
  | rxhLen | rxhFlags | rxhSeq | rxhPort | rxhCtrl | rxhClkidHi
  | rxhClkidLo | rxhCorrLo | rxhCorrHi | rxTsSecLo | rxTsSecHi | rxTsNs
  | rxReqclkHi | rxReqclkLo | rxReqport | rxAnn0 | rxAnn1 | rxGmidHi
  | rxGmidLo | rxAnn2 | rxTgtclkHi | rxTgtclkLo | rxMgmt0 | rxMgmt1
deriving DecidableEq, Repr

/-- The register word at an offset of the register region, none where R28 says reserved and at an offset that
is no multiple of 4 (never legal there, 20_memory.md R33). -/
def regAt (a : Nat) : Option RegWord :=
  match a with
  | 0x000 => some .cmd
  | 0x004 => some .status
  | 0x010 => some .uIn
  | 0x014 => some .lOut
  | 0x060 => some .snLo
  | 0x064 => some .snHi
  | 0x068 => some .wSecLo
  | 0x06C => some .wSecHi
  | 0x070 => some .wNs
  | 0x100 => some .ctxCfg
  | 0x104 => some .ctxFlags
  | 0x108 => some .ctxSeq
  | 0x10C => some .ctxPort
  | 0x110 => some .ctxClkidHi
  | 0x114 => some .ctxClkidLo
  | 0x118 => some .ctxCorrLo
  | 0x11C => some .ctxCorrHi
  | 0x120 => some .txReqclkHi
  | 0x124 => some .txReqclkLo
  | 0x128 => some .txReqport
  | 0x130 => some .txAnn0
  | 0x134 => some .txAnn1
  | 0x138 => some .txGmidHi
  | 0x13C => some .txGmidLo
  | 0x140 => some .txAnn2
  | 0x148 => some .txTgtclkHi
  | 0x14C => some .txTgtclkLo
  | 0x150 => some .txMgmt0
  | 0x154 => some .txMgmt1
  | 0x180 => some .rxhCfg
  | 0x184 => some .rxhLen
  | 0x188 => some .rxhFlags
  | 0x18C => some .rxhSeq
  | 0x190 => some .rxhPort
  | 0x194 => some .rxhCtrl
  | 0x198 => some .rxhClkidHi
  | 0x19C => some .rxhClkidLo
  | 0x1A0 => some .rxhCorrLo
  | 0x1A4 => some .rxhCorrHi
  | 0x1B0 => some .rxTsSecLo
  | 0x1B4 => some .rxTsSecHi
  | 0x1B8 => some .rxTsNs
  | 0x1C0 => some .rxReqclkHi
  | 0x1C4 => some .rxReqclkLo
  | 0x1C8 => some .rxReqport
  | 0x1D0 => some .rxAnn0
  | 0x1D4 => some .rxAnn1
  | 0x1D8 => some .rxGmidHi
  | 0x1DC => some .rxGmidLo
  | 0x1E0 => some .rxAnn2
  | 0x1E8 => some .rxTgtclkHi
  | 0x1EC => some .rxTgtclkLo
  | 0x1F0 => some .rxMgmt0
  | 0x1F4 => some .rxMgmt1
  | a =>
    if 0x020 ≤ a ∧ a < 0x060 then
      if a % 8 = 0 then some (.tSec (Fin.ofNat 8 ((a - 0x020) / 8)))
      else if a % 8 = 4 then some (.tNs (Fin.ofNat 8 ((a - 0x024) / 8)))
      else none
    else none

/-! ### Words and fields -/

/-- Bits 63 to 32 of a 64-bit value (20_memory.md R40). -/
def hiHalf (x : DWord) : Word := x.extractLsb' 32 32
/-- Bits 31 to 0 of a 64-bit value (20_memory.md R40). -/
def loHalf (x : DWord) : Word := x.extractLsb' 0 32
/-- A 64-bit value with bits 63 to 32 replaced; the others stay (20_memory.md R43). -/
def setHi (x : DWord) (v : Word) : DWord := v ++ loHalf x
/-- A 64-bit value with bits 31 to 0 replaced; the others stay (20_memory.md R43). -/
def setLo (x : DWord) (v : Word) : DWord := hiHalf x ++ v

/-- STATUS as the 32-bit word of 10_state.md R22; bits 3 and 31 to 12 read 0. -/
def Status.toWord (st : Status) : Word :=
  0#20 ++ BitVec.ofBool st.sBusErr ++ BitVec.ofBool st.sIll ++ BitVec.ofBool st.sOvf
    ++ BitVec.ofBool st.sFail ++ st.cause ++ 0#1 ++ BitVec.ofBool st.ill ++ BitVec.ofBool st.ovf
    ++ BitVec.ofBool st.fail

/-- A host write of `v` to STATUS: a 1 at a sticky bit's position clears it (20_memory.md R37). -/
def Status.clearSticky (st : Status) (v : Word) : Status :=
  { st with
    sFail := st.sFail && !v.getLsbD 8
    sOvf := st.sOvf && !v.getLsbD 9
    sIll := st.sIll && !v.getLsbD 10
    sBusErr := st.sBusErr && !v.getLsbD 11 }

/-- What a register word reads (10_state.md R28; 20_memory.md R35: bits of no field read 0). -/
def regRead (r : RegWord) (s : State) : Word :=
  match r with
  | .tSec i => (s.getT i).sec
  | .tNs i => (s.getT i).ns
  | .cmd => s.cmd
  | .status => s.status.toWord
  | .uIn => s.uIn
  | .lOut => s.lOut
  | .snLo => loHalf s.sn
  | .snHi => hiHalf s.sn
  | .wSecLo => s.w.sec.extractLsb' 0 32
  | .wSecHi => (s.w.sec.extractLsb' 32 16).setWidth 32
  | .wNs => s.w.ns
  | .ctxCfg => s.ctx.logint ++ s.ctx.domain ++ 0#4 ++ s.ctx.version ++ 0#4 ++ s.ctx.transport
  | .ctxFlags => s.ctx.flags.setWidth 32
  | .ctxSeq => s.ctx.seq.setWidth 32
  | .ctxPort => s.ctx.port.setWidth 32
  | .ctxClkidHi => hiHalf s.ctx.clkid
  | .ctxClkidLo => loHalf s.ctx.clkid
  | .ctxCorrLo => loHalf s.ctx.corr
  | .ctxCorrHi => hiHalf s.ctx.corr
  | .txReqclkHi => hiHalf s.tx.reqclk
  | .txReqclkLo => loHalf s.tx.reqclk
  | .txReqport => s.tx.reqport.setWidth 32
  | .txAnn0 => s.tx.pri2 ++ s.tx.pri1 ++ s.tx.utcoff
  | .txAnn1 => s.tx.variance ++ s.tx.acc ++ s.tx.cls
  | .txGmidHi => hiHalf s.tx.gmid
  | .txGmidLo => loHalf s.tx.gmid
  | .txAnn2 => 0#8 ++ s.tx.tsrc ++ s.tx.steps
  | .txTgtclkHi => hiHalf s.tx.tgtclk
  | .txTgtclkLo => loHalf s.tx.tgtclk
  | .txMgmt0 => s.tx.tgtport.setWidth 32
  | .txMgmt1 => 0#12 ++ s.tx.action ++ s.tx.bh ++ s.tx.sbh
  | .rxhCfg => s.rxh.logint ++ s.rxh.domain ++ 0#4 ++ s.rxh.version ++ s.rxh.msgtype ++ s.rxh.transport
  | .rxhLen => s.rxh.length.setWidth 32
  | .rxhFlags => s.rxh.flags.setWidth 32
  | .rxhSeq => s.rxh.seq.setWidth 32
  | .rxhPort => s.rxh.port.setWidth 32
  | .rxhCtrl => s.rxh.ctrl.setWidth 32
  | .rxhClkidHi => hiHalf s.rxh.clkid
  | .rxhClkidLo => loHalf s.rxh.clkid
  | .rxhCorrLo => loHalf s.rxh.corr
  | .rxhCorrHi => hiHalf s.rxh.corr
  | .rxTsSecLo => s.rx.tsSec.extractLsb' 0 32
  | .rxTsSecHi => (s.rx.tsSec.extractLsb' 32 16).setWidth 32
  | .rxTsNs => s.rx.tsNs
  | .rxReqclkHi => hiHalf s.rx.reqclk
  | .rxReqclkLo => loHalf s.rx.reqclk
  | .rxReqport => s.rx.reqport.setWidth 32
  | .rxAnn0 => s.rx.pri2 ++ s.rx.pri1 ++ s.rx.utcoff
  | .rxAnn1 => s.rx.variance ++ s.rx.acc ++ s.rx.cls
  | .rxGmidHi => hiHalf s.rx.gmid
  | .rxGmidLo => loHalf s.rx.gmid
  | .rxAnn2 => 0#8 ++ s.rx.tsrc ++ s.rx.steps
  | .rxTgtclkHi => hiHalf s.rx.tgtclk
  | .rxTgtclkLo => loHalf s.rx.tgtclk
  | .rxMgmt0 => s.rx.tgtport.setWidth 32
  | .rxMgmt1 => 0#12 ++ s.rx.action ++ s.rx.bh ++ s.rx.sbh

/-- What a host write of `v` does to a register word (10_state.md R28; 20_memory.md R35): every field of a RW
word takes its bits of `v`; a read-only word keeps its value. The write of `cmd` only stores the word: the
command it starts is `performCommand`. -/
def regWrite (r : RegWord) (v : Word) (s : State) : State :=
  match r with
  | .tSec i => s.setT i { s.getT i with sec := v }
  | .tNs i => s.setT i { s.getT i with ns := v }
  | .cmd => { s with cmd := v }
  | .status => { s with status := s.status.clearSticky v }
  | .uIn => { s with uIn := v }
  | .lOut => s
  | .snLo => { s with sn := setLo s.sn v }
  | .snHi => { s with sn := setHi s.sn v }
  | .wSecLo => { s with w := { s.w with sec := s.w.sec.extractLsb' 32 16 ++ v } }
  | .wSecHi => { s with w := { s.w with sec := v.extractLsb' 0 16 ++ s.w.sec.extractLsb' 0 32 } }
  | .wNs => { s with w := { s.w with ns := v } }
  | .ctxCfg => { s with ctx := { s.ctx with
      transport := v.extractLsb' 0 4, version := v.extractLsb' 8 4,
      domain := v.extractLsb' 16 8, logint := v.extractLsb' 24 8 } }
  | .ctxFlags => { s with ctx := { s.ctx with flags := v.extractLsb' 0 16 } }
  | .ctxSeq => { s with ctx := { s.ctx with seq := v.extractLsb' 0 16 } }
  | .ctxPort => { s with ctx := { s.ctx with port := v.extractLsb' 0 16 } }
  | .ctxClkidHi => { s with ctx := { s.ctx with clkid := setHi s.ctx.clkid v } }
  | .ctxClkidLo => { s with ctx := { s.ctx with clkid := setLo s.ctx.clkid v } }
  | .ctxCorrLo => { s with ctx := { s.ctx with corr := setLo s.ctx.corr v } }
  | .ctxCorrHi => { s with ctx := { s.ctx with corr := setHi s.ctx.corr v } }
  | .txReqclkHi => { s with tx := { s.tx with reqclk := setHi s.tx.reqclk v } }
  | .txReqclkLo => { s with tx := { s.tx with reqclk := setLo s.tx.reqclk v } }
  | .txReqport => { s with tx := { s.tx with reqport := v.extractLsb' 0 16 } }
  | .txAnn0 => { s with tx := { s.tx with
      utcoff := v.extractLsb' 0 16, pri1 := v.extractLsb' 16 8, pri2 := v.extractLsb' 24 8 } }
  | .txAnn1 => { s with tx := { s.tx with
      cls := v.extractLsb' 0 8, acc := v.extractLsb' 8 8, variance := v.extractLsb' 16 16 } }
  | .txGmidHi => { s with tx := { s.tx with gmid := setHi s.tx.gmid v } }
  | .txGmidLo => { s with tx := { s.tx with gmid := setLo s.tx.gmid v } }
  | .txAnn2 => { s with tx := { s.tx with steps := v.extractLsb' 0 16, tsrc := v.extractLsb' 16 8 } }
  | .txTgtclkHi => { s with tx := { s.tx with tgtclk := setHi s.tx.tgtclk v } }
  | .txTgtclkLo => { s with tx := { s.tx with tgtclk := setLo s.tx.tgtclk v } }
  | .txMgmt0 => { s with tx := { s.tx with tgtport := v.extractLsb' 0 16 } }
  | .txMgmt1 => { s with tx := { s.tx with
      sbh := v.extractLsb' 0 8, bh := v.extractLsb' 8 8, action := v.extractLsb' 16 4 } }
  | .rxhCfg => s
  | .rxhLen => s
  | .rxhFlags => s
  | .rxhSeq => s
  | .rxhPort => s
  | .rxhCtrl => s
  | .rxhClkidHi => s
  | .rxhClkidLo => s
  | .rxhCorrLo => s
  | .rxhCorrHi => s
  | .rxTsSecLo => s
  | .rxTsSecHi => s
  | .rxTsNs => s
  | .rxReqclkHi => s
  | .rxReqclkLo => s
  | .rxReqport => s
  | .rxAnn0 => s
  | .rxAnn1 => s
  | .rxGmidHi => s
  | .rxGmidLo => s
  | .rxAnn2 => s
  | .rxTgtclkHi => s
  | .rxTgtclkLo => s
  | .rxMgmt0 => s
  | .rxMgmt1 => s

/-! ### Commands -/

/-- Perform a command word (30_encoding.md R50): CMD takes the word; then the command, or the recording of
Illegal(1) or Illegal(2) (60_exceptions.md R110). -/
def performCommand (v : Word) (s : State) : Host.Outcome State Fault Refusal :=
  match decode v with
  | .command i => exec i (regWrite .cmd v s)
  | .illegal why => .next ((regWrite .cmd v s).beginCommand.raiseIllegal (illegalCause why))

/-! ### Accesses -/

/-- The bytes of an access (20_memory.md R32). -/
def AccessSize.bytes : AccessSize → Nat
  | .b1 => 1
  | .b2 => 2
  | .b4 => 4

/-- A legal access: in the register region 4 bytes at a multiple of 4 (20_memory.md R33), in the buffer
windows naturally aligned (R36). -/
def legalAccess (a : Nat) (n : AccessSize) : Bool :=
  if a < 0x200 then decide (n = .b4 ∧ a % 4 = 0) else decide (a % n.bytes = 0)

/-- The buffer and offset of a window address (20_memory.md R36). -/
def windowOf (a : Nat) : BufId × Nat :=
  if a < 0x300 then (.obuf, a - 0x200) else (.ibuf, a - 0x300)

/-- The data of a legal read (20_memory.md R35, R36): the register word, 0 for a reserved one, or the bytes
in little-endian lanes. -/
def readData (a : Nat) (n : AccessSize) (s : State) : Word :=
  if a < 0x200 then
    match regAt a with
    | some r => regRead r s
    | none => 0
  else BitVec.ofNat 32 (s.laneRead (windowOf a).1 (windowOf a).2 n.bytes)

/-- The answer of the bus to the access just made (70_reset_and_hazards.md R134; log 3). -/
def State.respond (s : State) (r : BusResponse) : State := { s with response := some r }

/-- A bus error changes nothing but S_BUSERR (20_memory.md R34). -/
def State.busError (s : State) : State := { s with status := { s.status with sBusErr := true } }

/-- `MemRead(a, n)`: no side effect when legal (20_memory.md R38); a bus error returns 0 (R34). -/
def hostRead (a : Nat) (n : AccessSize) (s : State) : Host.Outcome State Fault Refusal :=
  .next (if legalAccess a n then s.respond (.readData (readData a n s))
    else s.busError.respond (.readError 0))

/-- `MemWrite(a, n, v)`: a buffer write, a register write, or the performing of the command when the word is
CMD (20_memory.md R34 to R38). -/
def hostWrite (a : Nat) (n : AccessSize) (v : Word) (s : State) : Host.Outcome State Fault Refusal :=
  if legalAccess a n then
    if a < 0x200 then
      match regAt a with
      | some .cmd => performCommand v (s.respond .written)
      | some r => .next (regWrite r v (s.respond .written))
      | none => .next (s.respond .written)
    else .next ((s.respond .written).laneWrite (windowOf a).1 (windowOf a).2 n.bytes v.toNat)
  else .next (s.busError.respond .writeError)

/-- Reset (70_reset_and_hazards.md R125, R126; log 5): every register takes its reset value and every buffer
byte becomes unwritten, to be drawn anew; what the host still has to send stays. -/
def hostReset (s : State) : Host.Outcome State Fault Refusal :=
  .next { State.reset with resets := s.resets + 1, pending := s.pending }

/-- One interaction of the host with the unit (70_reset_and_hazards.md R134). -/
def hostEvent (e : HostEvent) (s : State) : Host.Outcome State Fault Refusal :=
  match e with
  | .read a n => hostRead a.toNat n s
  | .write a n v => hostWrite a.toNat n v s
  | .reset => hostReset s

end Sys2Proof.Machine
end

