-- ==== Sys2Proof/Machine/Step.lean ====
section
/-! DEFINITION. One step of the machine: the oldest pending interaction of the host is performed whole
(20_memory.md R43, R45; 70_reset_and_hazards.md R133 to R135). The unit has no program counter and fetches
nothing (10_state.md R29): a command arrives as a 4-byte write to CMD. -/

namespace Sys2Proof.Machine

/-- One step. With nothing pending the run has ended and nothing changes (70_reset_and_hazards.md R135). -/
def step (s : State) : Host.Outcome State Fault Refusal :=
  match s.pending with
  | [] => .next s
  | e :: rest => hostEvent e { s with pending := rest }

/-- The state whose next step performs the given command word: the host's 4-byte write of the word to CMD
(offset 0x000) comes first among the pending interactions (log 2). Bits from `nbits` up are 0. -/
def State.withFetchWord (s : State) (nbits w : Nat) : State :=
  { s with pending := .write 0x000 .b4 (BitVec.ofNat 32 (w % 2 ^ nbits)) :: s.pending }

end Sys2Proof.Machine
end

