-- ==== Sys2Proof/Safety.lean ====
section
/-! DEFINITION. What every state of the unit must satisfy, in the terms the statements use. -/

namespace Sys2Proof.Machine

/-- STATUS describes at most one condition, with a cause code that belongs to it (60_exceptions.md R114,
R115): none with CAUSE 0, ILL with 1 or 2, FAIL with 3, 4 or 6, or OVF with 5. Codes 7 to 15 are never
produced. -/
abbrev Status.consistent (st : Status) : Prop :=
  (st.fail = false ∧ st.ovf = false ∧ st.ill = false ∧ st.cause = 0) ∨
  (st.fail = false ∧ st.ovf = false ∧ st.ill = true ∧ (st.cause = 1 ∨ st.cause = 2)) ∨
  (st.fail = true ∧ st.ovf = false ∧ st.ill = false ∧ (st.cause = 3 ∨ st.cause = 4 ∨ st.cause = 6)) ∨
  (st.fail = false ∧ st.ovf = true ∧ st.ill = false ∧ st.cause = 5)

/-- The invariant of the machine: both buffers keep their canonical form, within their 256 bytes
(10_state.md R27, 20_memory.md R44), and STATUS is consistent. -/
abbrev State.Inv (s : State) : Prop :=
  Memory.wf s.obuf ∧ Memory.wf s.ibuf ∧ s.status.consistent

/-- The normalization invariant of an InternalTime, on integers (10_state.md R15): `|ns| < 10^9`, and the
signs of both halves agree whenever both are nonzero. -/
abbrev Normalized (sec ns : Int) : Prop :=
  ns.natAbs < 1000000000 ∧ (sec ≠ 0 → ns ≠ 0 → sec.sign = ns.sign)

/-- A step that goes on: a next state, neither a fault nor a refusal (70_reset_and_hazards.md R134: nothing
puts the unit into a state where it no longer responds). -/
abbrev Responds (s : State) : Prop := ∃ t, step s = .next t

end Sys2Proof.Machine
end

