-- ==== Sys2Proof/Certificates/Slice0/Obligations.lean ====
section
/-! DEFINITION. The statements about the TNCU that the provers settle, with the words they are written in. -/

namespace Sys2Proof.Slice0

open Sys2Proof.Machine

/-! ### The words of the statements -/

/-- FAIL, OVF, ILL and CAUSE are 0 and the sticky bits are as before: a command that ended normally
(60_exceptions.md R113). -/
def StatusCleared (s t : State) : Prop :=
  t.status = { s.status with fail := false, ovf := false, ill := false, cause := 0 }

/-- The command failed with cause `c` (60_exceptions.md R111, R113). -/
def StatusFailed (c : BitVec 4) (s t : State) : Prop :=
  t.status = { s.status with fail := true, ovf := false, ill := false, cause := c, sFail := true }

/-- The command overflowed (60_exceptions.md R112, R113). -/
def StatusOverflowed (s t : State) : Prop :=
  t.status = { s.status with fail := false, ovf := true, ill := false, cause := 5, sOvf := true }

/-- The word was illegal with cause `c` (60_exceptions.md R110, R113). -/
def StatusIllegal (c : BitVec 4) (s t : State) : Prop :=
  t.status = { s.status with fail := false, ovf := false, ill := true, cause := c, sIll := true }

/-- Every byte of both buffers reads as before. -/
def SameBytes (s t : State) : Prop := ∀ b off, t.byteAt b off = s.byteAt b off

/-- The frame of a command whose destination is `T[rd]`: every other `T` register, every other register and
every buffer byte is as before, and STATUS is described apart. -/
def OnlyTChanged (rd : TReg) (s t : State) : Prop :=
  t = { s with t := t.t, status := t.status } ∧ (∀ j, j ≠ rd → t.getT j = s.getT j) ∧ SameBytes s t

/-- The frame of a command that fails: nothing but STATUS changes. -/
def OnlyStatusChanged (s t : State) : Prop := t = { s with status := t.status } ∧ SameBytes s t

/-- The seconds and nanoseconds of `T[i]` as integers. -/
def secOf (s : State) (i : TReg) : Int := (s.getT i).sec.toInt
/-- The nanoseconds of `T[i]` as an integer. -/
def nsOf (s : State) (i : TReg) : Int := (s.getT i).ns.toInt
/-- `total(T[i])` (00_scope.md R11). -/
def totalOf (s : State) (i : TReg) : Int := secOf s i * 1000000000 + nsOf s i

/-- `T[rd]` holds `(wrap_32(q), r)` for `(q, r) = canon(X)`, and STATUS says whether `q` fits int32
(40_time_arith.md R73 to R75; `wrap_32` of 00_scope.md R9 is the balanced remainder modulo 2^32). -/
def NormalizedInto (rd : TReg) (X : Int) (s t : State) : Prop :=
  secOf t rd = (X.tdiv 1000000000).bmod (2 ^ 32) ∧
  nsOf t rd = X - X.tdiv 1000000000 * 1000000000 ∧
  (-2 ^ 31 ≤ X.tdiv 1000000000 ∧ X.tdiv 1000000000 ≤ 2 ^ 31 - 1 → StatusCleared s t) ∧
  (X.tdiv 1000000000 < -2 ^ 31 ∨ 2 ^ 31 - 1 < X.tdiv 1000000000 → StatusOverflowed s t)

/-- The common header as PackHeader writes it to OBUF, field by field (42_framer_pack.md R86,
30_encoding.md R62). -/
def HeaderFramed (type len ctrl : Nat) (s t : State) : Prop :=
  t.bufRead .obuf 0 1 = s.ctx.transport.toNat * 16 + type ∧
  t.bufRead .obuf 1 1 = s.ctx.version.toNat ∧
  t.bufRead .obuf 2 2 = len ∧
  t.bufRead .obuf 4 1 = s.ctx.domain.toNat ∧
  t.bufRead .obuf 5 1 = 0 ∧
  t.bufRead .obuf 6 2 = s.ctx.flags.toNat ∧
  t.bufRead .obuf 8 8 = s.ctx.corr.toNat ∧
  t.bufRead .obuf 16 4 = 0 ∧
  t.bufRead .obuf 20 8 = s.ctx.clkid.toNat ∧
  t.bufRead .obuf 28 2 = s.ctx.port.toNat ∧
  t.bufRead .obuf 30 2 = s.ctx.seq.toNat ∧
  t.bufRead .obuf 32 1 = ctrl ∧
  t.bufRead .obuf 33 1 = s.ctx.logint.toNat

/-- The timestamp `W` at offset 34 of OBUF (42_framer_pack.md R86 PackTS, 30_encoding.md R57). -/
def TimestampFramed (s t : State) : Prop :=
  t.bufRead .obuf 34 6 = s.w.sec.toNat ∧ t.bufRead .obuf 40 4 = s.w.ns.toNat

/-- The frame of a PACK command: STATUS is cleared, only OBUF below `len` changes (42_framer_pack.md R96). -/
def FramedOnly (len : Nat) (s t : State) : Prop :=
  StatusCleared s t ∧ t = { s with status := t.status, obuf := t.obuf } ∧
  (∀ off, len ≤ off → t.byteAt .obuf off = s.byteAt .obuf off) ∧
  ∀ off, t.byteAt .ibuf off = s.byteAt .ibuf off

/-- The frame of a body command of the parser: STATUS is cleared, no register but `RX` and no buffer byte
changes; which fields of `RX` change is said apart (43_framer_unpack.md R108). -/
def ParsedOnly (s t : State) (rx : Rx) : Prop :=
  StatusCleared s t ∧ t = { s with status := t.status, rx := rx } ∧ SameBytes s t

/-- `RX.ts_sec` and `RX.ts_ns` hold the timestamp at offset 34 of IBUF (43_framer_unpack.md R97). -/
def TimestampParsed (s t : State) : Prop :=
  t.rx.tsSec.toNat = s.bufRead .ibuf 34 6 ∧ t.rx.tsNs.toNat = s.bufRead .ibuf 40 4

/-- The nine PACK commands with messageType, messageLength and controlField (30_encoding.md R60, R63, R61). -/
def packTable : List (Instr × Nat × Nat × Nat) :=
  [(.packSync, 0x0, 44, 0x00), (.packDelayReq, 0x1, 44, 0x01), (.packPdelayReq, 0x2, 54, 0x05),
   (.packPdelayResp, 0x3, 54, 0x05), (.packFollowUp, 0x8, 44, 0x02), (.packDelayResp, 0x9, 54, 0x03),
   (.packPdelayRespFu, 0xA, 54, 0x05), (.packAnnounce, 0xB, 64, 0x05), (.packManagement, 0xD, 48, 0x04)]

/-- The ten commands of the parser. -/
def unpackCommands : List Instr :=
  [.unpackHdr, .unpackSync, .unpackDelayReq, .unpackPdelayReq, .unpackPdelayResp, .unpackFollowUp,
   .unpackDelayResp, .unpackPdelayRespFu, .unpackAnnounce, .unpackManagement]

/-- The first `len` bytes of IBUF in `u` are those of OBUF in `t`: a packed message received again. -/
def Received (len : Nat) (t u : State) : Prop :=
  ∀ off, off < len → u.byteAt .ibuf off = t.byteAt .obuf off

/-- An access that 20_memory.md R33 and R36 call a bus error. -/
abbrev BusErrorAccess (a : Nat) (n : AccessSize) : Prop :=
  (a < 0x200 ∧ (n ≠ .b4 ∨ a % 4 ≠ 0)) ∨
  (0x200 ≤ a ∧ ((n = .b2 ∧ a % 2 ≠ 0) ∨ (n = .b4 ∧ a % 4 ≠ 0)))

/-- SEL of WIRE2INT as a number (30_encoding.md R52). -/
def wireSel : WireSrc → Nat
  | .w => 0
  | .rxts => 1

/-- SEL of SN2INT as a number (30_encoding.md R52). -/
def snSel : SnSrc → Nat
  | .sn => 0
  | .rxcorr => 1

/-- The seconds and nanoseconds that SEL selects for WIRE2INT (30_encoding.md R52). -/
def wireOperand (s : State) : WireSrc → BitVec 48 × BitVec 32
  | .w => (s.w.sec, s.w.ns)
  | .rxts => (s.rx.tsSec, s.rx.tsNs)

/-- The value that SEL selects for SN2INT (30_encoding.md R52). -/
def snOperand (s : State) : SnSrc → BitVec 64
  | .sn => s.sn
  | .rxcorr => s.rxh.corr

/-- `u` is the one word of command `i` (30_encoding.md R49 to R53). -/
def OnlyWord (u : Word) (i : Instr) : Prop := ∀ v : Word, decode v = .command i ↔ v = u

/-- The cause of an illegal word (60_exceptions.md R110). -/
def causeOf : IllegalWord → BitVec 4
  | .reservedOpcode => 1
  | .nonzeroField => 2

/-- `STATUS[7:0]` after an illegal word (60_exceptions.md R110, the examples). -/
def illegalByte : IllegalWord → Nat
  | .reservedOpcode => 0x14
  | .nonzeroField => 0x24

/-- Where a buffer's window begins (20_memory.md R31). -/
def windowBase : BufId → Nat
  | .obuf => 0x200
  | .ibuf => 0x300

/-- The bytes an access covers (20_memory.md R32). -/
def accessBytes : AccessSize → Nat
  | .b1 => 1
  | .b2 => 2
  | .b4 => 4

/-- 1 for a set bit, 0 for a clear one. -/
def bit (b : Bool) : Nat := if b then 1 else 0

/-- The value of every register word of the window as a sum of its fields at their positions
(10_state.md R28 and, for STATUS, R22); offsets 0x020 to 0x05C are said apart. -/
def registerValues (s : State) : List (Nat × Nat) :=
  [(0x000, s.cmd.toNat),
   (0x004, bit s.status.fail + bit s.status.ovf * 2 ^ 1 + bit s.status.ill * 2 ^ 2
      + s.status.cause.toNat * 2 ^ 4 + bit s.status.sFail * 2 ^ 8 + bit s.status.sOvf * 2 ^ 9
      + bit s.status.sIll * 2 ^ 10 + bit s.status.sBusErr * 2 ^ 11),
   (0x010, s.uIn.toNat), (0x014, s.lOut.toNat),
   (0x060, s.sn.toNat % 2 ^ 32), (0x064, s.sn.toNat / 2 ^ 32),
   (0x068, s.w.sec.toNat % 2 ^ 32), (0x06C, s.w.sec.toNat / 2 ^ 32), (0x070, s.w.ns.toNat),
   (0x100, s.ctx.transport.toNat + s.ctx.version.toNat * 2 ^ 8 + s.ctx.domain.toNat * 2 ^ 16
      + s.ctx.logint.toNat * 2 ^ 24),
   (0x104, s.ctx.flags.toNat), (0x108, s.ctx.seq.toNat), (0x10C, s.ctx.port.toNat),
   (0x110, s.ctx.clkid.toNat / 2 ^ 32), (0x114, s.ctx.clkid.toNat % 2 ^ 32),
   (0x118, s.ctx.corr.toNat % 2 ^ 32), (0x11C, s.ctx.corr.toNat / 2 ^ 32)] ++
  [(0x120, s.tx.reqclk.toNat / 2 ^ 32), (0x124, s.tx.reqclk.toNat % 2 ^ 32),
   (0x128, s.tx.reqport.toNat),
   (0x130, s.tx.utcoff.toNat + s.tx.pri1.toNat * 2 ^ 16 + s.tx.pri2.toNat * 2 ^ 24),
   (0x134, s.tx.cls.toNat + s.tx.acc.toNat * 2 ^ 8 + s.tx.variance.toNat * 2 ^ 16),
   (0x138, s.tx.gmid.toNat / 2 ^ 32), (0x13C, s.tx.gmid.toNat % 2 ^ 32),
   (0x140, s.tx.steps.toNat + s.tx.tsrc.toNat * 2 ^ 16),
   (0x148, s.tx.tgtclk.toNat / 2 ^ 32), (0x14C, s.tx.tgtclk.toNat % 2 ^ 32),
   (0x150, s.tx.tgtport.toNat),
   (0x154, s.tx.sbh.toNat + s.tx.bh.toNat * 2 ^ 8 + s.tx.action.toNat * 2 ^ 16)] ++
  [(0x180, s.rxh.transport.toNat + s.rxh.msgtype.toNat * 2 ^ 4 + s.rxh.version.toNat * 2 ^ 8
      + s.rxh.domain.toNat * 2 ^ 16 + s.rxh.logint.toNat * 2 ^ 24),
   (0x184, s.rxh.length.toNat), (0x188, s.rxh.flags.toNat), (0x18C, s.rxh.seq.toNat),
   (0x190, s.rxh.port.toNat), (0x194, s.rxh.ctrl.toNat),
   (0x198, s.rxh.clkid.toNat / 2 ^ 32), (0x19C, s.rxh.clkid.toNat % 2 ^ 32),
   (0x1A0, s.rxh.corr.toNat % 2 ^ 32), (0x1A4, s.rxh.corr.toNat / 2 ^ 32)] ++
  [(0x1B0, s.rx.tsSec.toNat % 2 ^ 32), (0x1B4, s.rx.tsSec.toNat / 2 ^ 32), (0x1B8, s.rx.tsNs.toNat),
   (0x1C0, s.rx.reqclk.toNat / 2 ^ 32), (0x1C4, s.rx.reqclk.toNat % 2 ^ 32),
   (0x1C8, s.rx.reqport.toNat),
   (0x1D0, s.rx.utcoff.toNat + s.rx.pri1.toNat * 2 ^ 16 + s.rx.pri2.toNat * 2 ^ 24),
   (0x1D4, s.rx.cls.toNat + s.rx.acc.toNat * 2 ^ 8 + s.rx.variance.toNat * 2 ^ 16),
   (0x1D8, s.rx.gmid.toNat / 2 ^ 32), (0x1DC, s.rx.gmid.toNat % 2 ^ 32),
   (0x1E0, s.rx.steps.toNat + s.rx.tsrc.toNat * 2 ^ 16),
   (0x1E8, s.rx.tgtclk.toNat / 2 ^ 32), (0x1EC, s.rx.tgtclk.toNat % 2 ^ 32),
   (0x1F0, s.rx.tgtport.toNat),
   (0x1F4, s.rx.sbh.toNat + s.rx.bh.toNat * 2 ^ 8 + s.rx.action.toNat * 2 ^ 16)]

/-- The reserved words of the register region (10_state.md R28). -/
abbrev reservedWord (a : Nat) : Prop :=
  a = 0x008 ∨ a = 0x00C ∨ a = 0x018 ∨ a = 0x01C ∨ (0x074 ≤ a ∧ a ≤ 0x0FC) ∨ a = 0x12C ∨ a = 0x144 ∨
  (0x158 ≤ a ∧ a ≤ 0x17C) ∨ a = 0x1A8 ∨ a = 0x1AC ∨ a = 0x1BC ∨ a = 0x1CC ∨ a = 0x1E4 ∨
  a = 0x1F8 ∨ a = 0x1FC

/-- The bits of a register word that a host write sets (10_state.md R28): the field bits of a RW word, none
of a read-only or reserved one. CMD (0x000) and STATUS (0x004) are said apart. -/
def writableBits (a : Nat) : Word :=
  if a = 0x010 ∨ (0x020 ≤ a ∧ a ≤ 0x068) ∨ a = 0x070 then 0xFFFFFFFF
  else if a = 0x06C ∨ a = 0x104 ∨ a = 0x108 ∨ a = 0x10C ∨ a = 0x128 ∨ a = 0x150 then 0x0000FFFF
  else if a = 0x100 then 0xFFFF0F0F
  else if (0x110 ≤ a ∧ a ≤ 0x124) ∨ (0x130 ≤ a ∧ a ≤ 0x13C) ∨ a = 0x148 ∨ a = 0x14C then 0xFFFFFFFF
  else if a = 0x140 then 0x00FFFFFF
  else if a = 0x154 then 0x000FFFFF
  else 0

end Sys2Proof.Slice0

open Sys2Proof Sys2Proof.Machine Sys2Proof.Slice0

/-! ### Encoding -/

/-- 30_encoding.md R50 to R53: a word decodes to a command exactly when it is that command's one word, for
every command and every operand; so decode of encode gives the command back, and no second word does. -/
def Obligations.CommandsDecodeFromTheirOneWord : Prop :=
  ∀ (v : Word) (i : Instr), decode v = .command i ↔ encode i = v

/-- 30_encoding.md R51: the decoder accepts a word exactly when the word matches a row of the opcode table,
`(v AND mask) = opc`. -/
def Obligations.DecoderAcceptsExactlyTheTable : Prop :=
  ∀ v : Word, (∃ i, decode v = .command i) ↔ matchesRow v = true

/-- 30_encoding.md R54, 60_exceptions.md R115: cause 1 for a reserved opcode whatever the other fields; cause
2 for a defined opcode with a nonzero RES or unused field. -/
def Obligations.IllegalCausesTestOpcodeFirst : Prop :=
  ∀ v : Word,
    (decode v = .illegal .reservedOpcode ↔ opcodeDefined v = false) ∧
    (decode v = .illegal .nonzeroField ↔
      opcodeDefined v = true ∧ (reservedZero v = false ∨ unusedZero v = false))

/-- 30_encoding.md R49, R53 (words written out field by field): a word of every format decodes to the command
it stands for. -/
def Obligations.WrittenWordsDecode : Prop :=
  decode 0x00000000 = .command .nop ∧
  decode 0x00000901 = .command (.norm 1 1) ∧
  decode 0x00016602 = .command (.add 6 4 5) ∧
  decode 0x00009B03 = .command (.sub 3 3 2) ∧
  decode 0x00003604 = .command (.halve 6 6) ∧
  decode 0x00000005 = .command .flog2 ∧
  decode 0x00002808 = .command (.int2wire 5) ∧
  decode 0x00020109 = .command (.wire2int 1 .rxts) ∧
  decode 0x0000070A = .command (.sn2int 7 .sn) ∧
  decode 0x0002080B = .command (.int2sn 1 .ctxcorr) ∧
  decode 0x0000002B = .command .packAnnounce ∧
  decode 0x0000003A = .command .unpackPdelayRespFu ∧
  decode 0x00000040 = .command .unpackHdr

/-! ### A step, and a whole run -/

/-- 20_memory.md R38, 30_encoding.md R50: when the host writes a word that decodes to a command to CMD, the
step is that command's `exec` on the state with the word in CMD and the write answered (`pending` and
`response` are the model's own, logs 2 and 3). -/
def Obligations.StepPerformsTheDecodedCommand : Prop :=
  ∀ (s : State) (rest : List HostEvent) (v : Word) (i : Instr), decode v = .command i →
    step { s with pending := .write 0x000 .b4 v :: rest } =
      exec i { s with pending := rest, response := some .written, cmd := v }

/-- 60_exceptions.md R110: an illegal word changes CMD and STATUS only (beside the host's side of the bus,
log 3), with its cause; the rule's three examples are the last clauses. -/
def Obligations.IllegalWordOnlyRecords : Prop :=
  (∀ (s : State) (rest : List HostEvent) (v : Word) (why : IllegalWord), decode v = .illegal why →
    ∃ t, step { s with pending := .write 0x000 .b4 v :: rest } = .next t ∧
      StatusIllegal (causeOf why) s t ∧ t.status.toWord.toNat % 256 = illegalByte why ∧
      t = { s with pending := rest, response := some .written, cmd := v, status := t.status } ∧
      SameBytes s t) ∧
  decode 0x00000006 = .illegal .reservedOpcode ∧
  decode 0x00004001 = .illegal .nonzeroField ∧
  decode 0x00040001 = .illegal .nonzeroField

/-- 70_reset_and_hazards.md R135: every step answers a next state, and a run over the pending interactions
ends after as many steps, with nothing pending. That a step with nothing pending changes nothing is the
model's reading (log 2). -/
def Obligations.EveryRunEnds : Prop :=
  (∀ s : State, Responds s) ∧
  (∀ s : State, ∃ t : State, Host.Core.run Sys2Proof.core s.pending.length s = .next t ∧ t.pending = []) ∧
  ∀ s : State, s.pending = [] → step s = .next s

/-! ### Invariants and whole-machine rules -/

/-- Whatever the state, a step from a state that meets the invariant gives one that meets it: both buffers
keep their canonical form within 256 bytes, and STATUS records at most one condition with a cause code of
that condition, never 7 to 15 (60_exceptions.md R114, R115; 20_memory.md R44). -/
def Obligations.StepKeepsInvariant : Prop :=
  ∀ s t : State, s.Inv → step s = .next t → t.Inv

/-- The state after reset meets the invariant. -/
def Obligations.ResetMeetsInvariant : Prop := State.reset.Inv

/-- 10_state.md R14, R18 to R20, R23 to R27, 42_framer_pack.md R96, 43_framer_unpack.md R108: every command
completes, and writes no register but the ones those rules name; no command writes CMD, `U_IN`, `TX` or
IBUF, and none touches the host's side. -/
def Obligations.CommandsWriteOnlyTheirDestinations : Prop :=
  ∀ (i : Instr) (s : State), ∃ t, exec i s = .next t ∧
    (t.t ≠ s.t → (∃ d a, i = .norm d a) ∨ (∃ d a b, i = .add d a b) ∨ (∃ d a b, i = .sub d a b) ∨
      (∃ d a, i = .halve d a) ∨ (∃ d x, i = .wire2int d x) ∨ ∃ d x, i = .sn2int d x) ∧
    (t.sn ≠ s.sn → ∃ a, i = .int2sn a .sn) ∧
    (t.w ≠ s.w → ∃ a, i = .int2wire a) ∧
    (t.lOut ≠ s.lOut → i = .flog2) ∧
    (t.ctx ≠ s.ctx → (∃ a, i = .int2sn a .ctxcorr) ∧ t.ctx = { s.ctx with corr := t.ctx.corr }) ∧
    (t.rxh ≠ s.rxh → i = .unpackHdr) ∧
    (t.rx ≠ s.rx → i ∈ unpackCommands ∧ i ≠ .unpackHdr) ∧
    (t.obuf ≠ s.obuf → ∃ p ∈ packTable, p.1 = i) ∧
    t.ibuf = s.ibuf ∧ t.uIn = s.uIn ∧ t.tx = s.tx ∧ t.cmd = s.cmd ∧ t.resets = s.resets ∧
    t.pending = s.pending ∧ t.response = s.response

/-- 60_exceptions.md R113: the STATUS update of every command word written to CMD, legal or not; the sticky
bits are only ever set, and S_BUSERR stays. -/
def Obligations.CommandWordUpdatesStatus : Prop :=
  ∀ (s : State) (rest : List HostEvent) (v : Word),
    ∃ t, step { s with pending := .write 0x000 .b4 v :: rest } = .next t ∧ t.cmd = v ∧
      (StatusCleared s t ∨ (∃ c, StatusIllegal c s t) ∨ (∃ c, StatusFailed c s t) ∨
        StatusOverflowed s t) ∧
      ((∃ c, StatusIllegal c s t) ↔ ∀ i, decode v ≠ .command i) ∧
      t.status.sBusErr = s.status.sBusErr

/-- 60_exceptions.md R114: which command raises which condition and cause, exactly when, and that no other
command raises any. -/
def Obligations.ConditionsHaveTheirCauses : Prop :=
  ∀ (i : Instr) (s : State), ∃ t, exec i s = .next t ∧
    (StatusFailed 3 s t ↔ ∃ a, i = .int2wire a ∧ (secOf s a < 0 ∨ nsOf s a < 0)) ∧
    (StatusFailed 4 s t ↔ ∃ d x, i = .wire2int d x ∧ 2 ^ 31 - 1 < (wireOperand s x).1.toNat) ∧
    (StatusFailed 6 s t ↔ ∃ a x, i = .int2sn a x ∧
      (totalOf s a * 2 ^ 16 < -2 ^ 63 ∨ 2 ^ 63 - 1 < totalOf s a * 2 ^ 16)) ∧
    (StatusOverflowed s t ↔ ∃ X : Int,
      ((∃ d a, i = .norm d a ∧ X = totalOf s a) ∨
        (∃ d a b, i = .add d a b ∧ X = totalOf s a + totalOf s b) ∨
        ∃ d a b, i = .sub d a b ∧ X = totalOf s a - totalOf s b) ∧
      (X.tdiv 1000000000 < -2 ^ 31 ∨ 2 ^ 31 - 1 < X.tdiv 1000000000)) ∧
    (StatusCleared s t ∨ StatusFailed 3 s t ∨ StatusFailed 4 s t ∨ StatusFailed 6 s t ∨
      StatusOverflowed s t)

/-! ### Time arithmetic -/

/-- 40_time_arith.md R72. -/
def Obligations.NopClearsCommandStatus : Prop :=
  OnlyWord 0x00000000 .nop ∧
  ∀ s : State, ∃ t, exec .nop s = .next t ∧ StatusCleared s t ∧ OnlyStatusChanged s t

/-- 40_time_arith.md R73. -/
def Obligations.NormWritesCanonicalForm : Prop :=
  ∀ (rd rs1 : TReg) (s : State),
    OnlyWord (BitVec.ofNat 32 (0x01 + rd.val * 2 ^ 8 + rs1.val * 2 ^ 11)) (.norm rd rs1) ∧
    ∃ t, exec (.norm rd rs1) s = .next t ∧
      NormalizedInto rd (secOf s rs1 * 1000000000 + nsOf s rs1) s t ∧ OnlyTChanged rd s t ∧
      -2 ^ 31 - 2 ≤ (totalOf s rs1).tdiv 1000000000 ∧ (totalOf s rs1).tdiv 1000000000 ≤ 2 ^ 31 + 1 ∧
      (StatusOverflowed s t → 2 ^ 31 - 2 ≤ (secOf s rs1).natAbs ∧ 1000000000 ≤ (nsOf s rs1).natAbs)

/-- 40_time_arith.md R74. -/
def Obligations.AddWritesNormalizedSum : Prop :=
  ∀ (rd rs1 rs2 : TReg) (s : State),
    OnlyWord (BitVec.ofNat 32 (0x02 + rd.val * 2 ^ 8 + rs1.val * 2 ^ 11 + rs2.val * 2 ^ 14)) (.add rd rs1 rs2) ∧
    ∃ t, exec (.add rd rs1 rs2) s = .next t ∧
      NormalizedInto rd
        ((secOf s rs1 + secOf s rs2) * 1000000000 + (nsOf s rs1 + nsOf s rs2)) s t ∧
      OnlyTChanged rd s t

/-- 40_time_arith.md R75. -/
def Obligations.SubWritesNormalizedDifference : Prop :=
  ∀ (rd rs1 rs2 : TReg) (s : State),
    OnlyWord (BitVec.ofNat 32 (0x03 + rd.val * 2 ^ 8 + rs1.val * 2 ^ 11 + rs2.val * 2 ^ 14)) (.sub rd rs1 rs2) ∧
    ∃ t, exec (.sub rd rs1 rs2) s = .next t ∧
      NormalizedInto rd
        ((secOf s rs1 - secOf s rs2) * 1000000000 + (nsOf s rs1 - nsOf s rs2)) s t ∧
      OnlyTChanged rd s t ∧
      (rs1 = rs2 → t.getT rd = ⟨0, 0⟩ ∧ StatusCleared s t)

/-- 40_time_arith.md R76: the value, normalized, and that no condition is raised. -/
def Obligations.HalveWritesHalf : Prop :=
  ∀ (rd rs1 : TReg) (s : State),
    OnlyWord (BitVec.ofNat 32 (0x04 + rd.val * 2 ^ 8 + rs1.val * 2 ^ 11)) (.halve rd rs1) ∧
    ∃ t, exec (.halve rd rs1) s = .next t ∧ StatusCleared s t ∧ OnlyTChanged rd s t ∧
      totalOf t rd = (secOf s rs1).tdiv 2 * 1000000000 +
        (nsOf s rs1 + (secOf s rs1).tmod 2 * 1000000000).tdiv 2 ∧
      Normalized (secOf t rd) (nsOf t rd)

/-- 40_time_arith.md R77. -/
def Obligations.Flog2WritesHighestBit : Prop :=
  OnlyWord 0x00000005 .flog2 ∧
  ∀ s : State, ∃ t, exec .flog2 s = .next t ∧ StatusCleared s t ∧
    t = { s with status := t.status, lOut := t.lOut } ∧ SameBytes s t ∧
    (s.uIn = 0 → t.lOut = 0xFFFFFFFF) ∧
    ∀ k < 32, s.uIn.getLsbD k = true → (∀ j, k < j → s.uIn.getLsbD j = false) →
      t.lOut.toNat = k

/-- 10_state.md R16: `canon(X)` is normalized, has total `X`, and is the only such pair. -/
def Obligations.CanonIsTheOnlyNormalizedPair : Prop :=
  ∀ X : Int, Normalized (canon X).1 (canon X).2 ∧
    (canon X).1 * 1000000000 + (canon X).2 = X ∧
    ∀ sec ns : Int, Normalized sec ns → sec * 1000000000 + ns = X → canon X = (sec, ns)

/-- What 40_time_arith.md R73 and R76 and 41_conversion.md R81 mark as the spec's own inferences ("[derived: …]"):
NORM returns a normalized input unchanged; twice the result of HALVE is within 1 ns of its input, and for a
normalized input HALVE gives half the total rounded toward zero; the result of SN2INT is normalized. -/
def Obligations.NormHalveAndSn2intOnNormalizedTimes : Prop :=
  (∀ (rd rs1 : TReg) (s : State), Normalized (secOf s rs1) (nsOf s rs1) →
    ∃ t, exec (.norm rd rs1) s = .next t ∧ t.getT rd = s.getT rs1 ∧ StatusCleared s t) ∧
  (∀ (rd rs1 : TReg) (s : State), ∃ t, exec (.halve rd rs1) s = .next t ∧
    (2 * totalOf t rd - totalOf s rs1).natAbs ≤ 1 ∧
    (Normalized (secOf s rs1) (nsOf s rs1) → totalOf t rd = (totalOf s rs1).tdiv 2)) ∧
  ∀ (rd : TReg) (src : SnSrc) (s : State), ∃ t, exec (.sn2int rd src) s = .next t ∧
    Normalized (secOf t rd) (nsOf t rd)

/-- 40_time_arith.md R80: with OVF 0, NORM, ADD and SUB are exact on totals and give normalized results;
subtracting what was added gives back `canon(total(a))`, which is `a` when `a` is normalized; ADD is
commutative; NORM is idempotent. -/
def Obligations.ArithmeticPreservesValue : Prop :=
  (∀ (s : State) (d a : TReg), ∃ t, exec (.norm d a) s = .next t ∧
    (t.status.ovf = false → totalOf t d = totalOf s a ∧ Normalized (secOf t d) (nsOf t d))) ∧
  (∀ (s : State) (d a b : TReg), ∃ t, exec (.add d a b) s = .next t ∧
    (t.status.ovf = false →
      totalOf t d = totalOf s a + totalOf s b ∧ Normalized (secOf t d) (nsOf t d))) ∧
  (∀ (s : State) (d a b : TReg), ∃ t, exec (.sub d a b) s = .next t ∧
    (t.status.ovf = false →
      totalOf t d = totalOf s a - totalOf s b ∧ Normalized (secOf t d) (nsOf t d))) ∧
  (∀ (s : State) (d e a b : TReg), d ≠ b →
    ∃ t u, exec (.add d a b) s = .next t ∧ exec (.sub e d b) t = .next u ∧
      (t.status.ovf = false → u.status.ovf = false →
        (secOf u e, nsOf u e) = canon (totalOf s a) ∧
        (u.getT e = s.getT a ↔ Normalized (secOf s a) (nsOf s a)))) ∧
  (∀ (s : State) (d a b : TReg), exec (.add d a b) s = exec (.add d b a) s) ∧
  ∀ (s : State) (d e a : TReg), ∃ t u, exec (.norm d a) s = .next t ∧ exec (.norm e d) t = .next u ∧
    (t.status.ovf = false → u.getT e = t.getT d ∧ u.status.ovf = false)

/-! ### Conversions -/

/-- 41_conversion.md R81. -/
def Obligations.Sn2intTruncatesTowardZero : Prop :=
  ∀ (rd : TReg) (src : SnSrc) (s : State),
    OnlyWord (BitVec.ofNat 32 (0x0A + rd.val * 2 ^ 8 + snSel src * 2 ^ 17)) (.sn2int rd src) ∧
    ∃ t, exec (.sn2int rd src) s = .next t ∧ StatusCleared s t ∧ OnlyTChanged rd s t ∧
      ∀ x : Int, x = (snOperand s src).toInt →
        (0 ≤ x → secOf t rd = x / 2 ^ 16 / 1000000000 ∧ nsOf t rd = x / 2 ^ 16 % 1000000000) ∧
        (x < 0 → secOf t rd = -(-x / 2 ^ 16 / 1000000000) ∧
          nsOf t rd = -(-x / 2 ^ 16 % 1000000000))

/-- 41_conversion.md R82: the value in range, and Fail(6) with nothing written exactly outside
`[-2^47, 2^47 - 1]` nanoseconds. -/
def Obligations.Int2snWritesScaledTotal : Prop :=
  ∀ (rs1 : TReg) (s : State),
    OnlyWord (BitVec.ofNat 32 (0x0B + rs1.val * 2 ^ 11)) (.int2sn rs1 .sn) ∧
    OnlyWord (BitVec.ofNat 32 (0x0B + rs1.val * 2 ^ 11 + 2 ^ 17)) (.int2sn rs1 .ctxcorr) ∧
    ∃ t u, exec (.int2sn rs1 .sn) s = .next t ∧ exec (.int2sn rs1 .ctxcorr) s = .next u ∧
      (-2 ^ 47 ≤ totalOf s rs1 ∧ totalOf s rs1 ≤ 2 ^ 47 - 1 →
        t.sn.toInt = totalOf s rs1 * 2 ^ 16 ∧ StatusCleared s t ∧
        t = { s with status := t.status, sn := t.sn } ∧ SameBytes s t ∧
        u.ctx.corr.toInt = totalOf s rs1 * 2 ^ 16 ∧ StatusCleared s u ∧
        u = { s with status := u.status, ctx := { s.ctx with corr := u.ctx.corr } } ∧ SameBytes s u) ∧
      (totalOf s rs1 < -2 ^ 47 ∨ 2 ^ 47 - 1 < totalOf s rs1 →
        StatusFailed 6 s t ∧ OnlyStatusChanged s t ∧ u = t)

/-- 41_conversion.md R83. -/
def Obligations.Int2wireCopiesOrFails : Prop :=
  ∀ (rs1 : TReg) (s : State),
    OnlyWord (BitVec.ofNat 32 (0x08 + rs1.val * 2 ^ 11)) (.int2wire rs1) ∧
    ∃ t, exec (.int2wire rs1) s = .next t ∧
      (0 ≤ secOf s rs1 ∧ 0 ≤ nsOf s rs1 →
        (t.w.sec.toNat : Int) = secOf s rs1 ∧ (t.w.ns.toNat : Int) = nsOf s rs1 ∧ StatusCleared s t ∧
        t = { s with status := t.status, w := t.w } ∧ SameBytes s t) ∧
      (secOf s rs1 < 0 ∨ nsOf s rs1 < 0 → StatusFailed 3 s t ∧ OnlyStatusChanged s t)

/-- 41_conversion.md R84. -/
def Obligations.Wire2intCopiesOrFails : Prop :=
  ∀ (rd : TReg) (src : WireSrc) (s : State),
    OnlyWord (BitVec.ofNat 32 (0x09 + rd.val * 2 ^ 8 + wireSel src * 2 ^ 17)) (.wire2int rd src) ∧
    ∃ t, exec (.wire2int rd src) s = .next t ∧
      ∀ (ws : BitVec 48) (wn : BitVec 32),
        wireOperand s src = (ws, wn) →
        (ws.toNat ≤ 2 ^ 31 - 1 →
          secOf t rd = ws.toNat ∧ nsOf t rd = wn.toInt ∧ StatusCleared s t ∧ OnlyTChanged rd s t) ∧
        (2 ^ 31 - 1 < ws.toNat → StatusFailed 4 s t ∧ OnlyStatusChanged s t)

/-- 41_conversion.md R85: the four round trips. -/
def Obligations.ConversionsRoundTrip : Prop :=
  (∀ (s : State) (a d : TReg), ∃ t u, exec (.int2sn a .sn) s = .next t ∧
    exec (.sn2int d .sn) t = .next u ∧
    (t.status.fail = false → (secOf u d, nsOf u d) = canon (totalOf s a))) ∧
  (∀ (s : State) (d : TReg), ∃ t u, exec (.sn2int d .sn) s = .next t ∧
    exec (.int2sn d .sn) t = .next u ∧ u.status.fail = false ∧
    u.sn.toInt = s.sn.toInt.tdiv (2 ^ 16) * 2 ^ 16) ∧
  (∀ (s : State) (a d : TReg), ∃ t u, exec (.int2wire a) s = .next t ∧
    exec (.wire2int d .w) t = .next u ∧
    (0 ≤ secOf s a → 0 ≤ nsOf s a → u.getT d = s.getT a)) ∧
  ∀ (s : State) (d : TReg), ∃ t u, exec (.wire2int d .w) s = .next t ∧
    exec (.int2wire d) t = .next u ∧
    (s.w.sec.toNat ≤ 2 ^ 31 - 1 → s.w.ns.toNat ≤ 2 ^ 31 - 1 → u.w = s.w ∧ u.status.fail = false)

/-! ### The framer -/

/-- 42_framer_pack.md R88, R89, R90: the header and the timestamp of the 44-byte messages, and nothing
else. -/
def Obligations.PackTimestampMessages : Prop :=
  ∀ (s : State),
    (OnlyWord 0x00000020 .packSync ∧ OnlyWord 0x00000028 .packFollowUp ∧
      OnlyWord 0x00000021 .packDelayReq) ∧
    (∃ t, exec .packSync s = .next t ∧ HeaderFramed 0x0 44 0x00 s t ∧ TimestampFramed s t ∧
      FramedOnly 44 s t) ∧
    (∃ t, exec .packFollowUp s = .next t ∧ HeaderFramed 0x8 44 0x02 s t ∧ TimestampFramed s t ∧
      FramedOnly 44 s t) ∧
    ∃ t, exec .packDelayReq s = .next t ∧ HeaderFramed 0x1 44 0x01 s t ∧ TimestampFramed s t ∧
      FramedOnly 44 s t

/-- 42_framer_pack.md R92: the ten reserved bytes are written 0. -/
def Obligations.PackPdelayReqMessage : Prop :=
  OnlyWord 0x00000022 .packPdelayReq ∧
  ∀ (s : State), ∃ t, exec .packPdelayReq s = .next t ∧ HeaderFramed 0x2 54 0x05 s t ∧
    TimestampFramed s t ∧ t.bufRead .obuf 44 10 = 0 ∧ FramedOnly 54 s t

/-- 42_framer_pack.md R91, R93, R94: the 54-byte messages that carry a requesting port identity. -/
def Obligations.PackPortIdentityMessages : Prop :=
  (OnlyWord 0x00000029 .packDelayResp ∧ OnlyWord 0x00000023 .packPdelayResp ∧
    OnlyWord 0x0000002A .packPdelayRespFu) ∧
  ∀ (s : State),
    (∃ t, exec .packDelayResp s = .next t ∧ HeaderFramed 0x9 54 0x03 s t ∧ TimestampFramed s t ∧
      t.bufRead .obuf 44 8 = s.tx.reqclk.toNat ∧ t.bufRead .obuf 52 2 = s.tx.reqport.toNat ∧
      FramedOnly 54 s t) ∧
    (∃ t, exec .packPdelayResp s = .next t ∧ HeaderFramed 0x3 54 0x05 s t ∧ TimestampFramed s t ∧
      t.bufRead .obuf 44 8 = s.tx.reqclk.toNat ∧ t.bufRead .obuf 52 2 = s.tx.reqport.toNat ∧
      FramedOnly 54 s t) ∧
    ∃ t, exec .packPdelayRespFu s = .next t ∧ HeaderFramed 0xA 54 0x05 s t ∧ TimestampFramed s t ∧
      t.bufRead .obuf 44 8 = s.tx.reqclk.toNat ∧ t.bufRead .obuf 52 2 = s.tx.reqport.toNat ∧
      FramedOnly 54 s t

/-- 42_framer_pack.md R87. -/
def Obligations.PackAnnounceMessage : Prop :=
  OnlyWord 0x0000002B .packAnnounce ∧
  ∀ (s : State), ∃ t, exec .packAnnounce s = .next t ∧ HeaderFramed 0xB 64 0x05 s t ∧
    TimestampFramed s t ∧
    t.bufRead .obuf 44 2 = s.tx.utcoff.toNat ∧ t.bufRead .obuf 46 1 = 0 ∧
    t.bufRead .obuf 47 1 = s.tx.pri1.toNat ∧ t.bufRead .obuf 48 1 = s.tx.cls.toNat ∧
    t.bufRead .obuf 49 1 = s.tx.acc.toNat ∧ t.bufRead .obuf 50 2 = s.tx.variance.toNat ∧
    t.bufRead .obuf 52 1 = s.tx.pri2.toNat ∧ t.bufRead .obuf 53 8 = s.tx.gmid.toNat ∧
    t.bufRead .obuf 61 2 = s.tx.steps.toNat ∧ t.bufRead .obuf 63 1 = s.tx.tsrc.toNat ∧
    FramedOnly 64 s t

/-- 42_framer_pack.md R95; `W` is not read, see `PackReadsOnlyItsSources`. -/
def Obligations.PackManagementMessage : Prop :=
  OnlyWord 0x0000002D .packManagement ∧
  ∀ (s : State), ∃ t, exec .packManagement s = .next t ∧ HeaderFramed 0xD 48 0x04 s t ∧
    t.bufRead .obuf 34 8 = s.tx.tgtclk.toNat ∧ t.bufRead .obuf 42 2 = s.tx.tgtport.toNat ∧
    t.bufRead .obuf 44 1 = s.tx.sbh.toNat ∧ t.bufRead .obuf 45 1 = s.tx.bh.toNat ∧
    t.bufRead .obuf 46 1 = s.tx.action.toNat ∧ t.bufRead .obuf 47 1 = 0 ∧ FramedOnly 48 s t

/-- 42_framer_pack.md R86, R95, R96: the bytes a PACK command writes depend on `CTX`, `TX` and `W` alone,
and those of PACK.MANAGEMENT not on `W`; two machines that differ anywhere else frame the same message. -/
def Obligations.PackReadsOnlyItsSources : Prop :=
  ∀ p ∈ packTable, ∀ s s' : State, s.ctx = s'.ctx → s.tx = s'.tx →
    (s.w = s'.w ∨ p.1 = .packManagement) →
    ∃ t t', exec p.1 s = .next t ∧ exec p.1 s' = .next t' ∧
      ∀ off, off < p.2.2.1 → t.byteAt .obuf off = t'.byteAt .obuf off

/-! ### The parser -/

/-- 43_framer_unpack.md R98. -/
def Obligations.UnpackHdrReadsHeader : Prop :=
  OnlyWord 0x00000040 .unpackHdr ∧
  ∀ (s : State), ∃ t, exec .unpackHdr s = .next t ∧ StatusCleared s t ∧
    t = { s with status := t.status, rxh := t.rxh } ∧ SameBytes s t ∧
    t.rxh.transport.toNat = s.bufRead .ibuf 0 1 / 16 ∧
    t.rxh.msgtype.toNat = s.bufRead .ibuf 0 1 % 16 ∧
    t.rxh.version.toNat = s.bufRead .ibuf 1 1 % 16 ∧
    t.rxh.length.toNat = s.bufRead .ibuf 2 2 ∧
    t.rxh.domain.toNat = s.bufRead .ibuf 4 1 ∧
    t.rxh.flags.toNat = s.bufRead .ibuf 6 2 ∧
    t.rxh.corr.toNat = s.bufRead .ibuf 8 8 ∧
    t.rxh.clkid.toNat = s.bufRead .ibuf 20 8 ∧
    t.rxh.port.toNat = s.bufRead .ibuf 28 2 ∧
    t.rxh.seq.toNat = s.bufRead .ibuf 30 2 ∧
    t.rxh.ctrl.toNat = s.bufRead .ibuf 32 1 ∧
    t.rxh.logint.toNat = s.bufRead .ibuf 33 1

/-- 43_framer_unpack.md R100, R101, R102, R104: the timestamp, and no other field of `RX`. -/
def Obligations.UnpackTimestampBodies : Prop :=
  ∀ p ∈ [(0x30, Instr.unpackSync), (0x38, .unpackFollowUp), (0x31, .unpackDelayReq),
      (0x32, .unpackPdelayReq)],
    OnlyWord (BitVec.ofNat 32 p.1) p.2 ∧
    ∀ (s : State), ∃ t, exec p.2 s = .next t ∧ TimestampParsed s t ∧
      ParsedOnly s t { s.rx with tsSec := t.rx.tsSec, tsNs := t.rx.tsNs }

/-- 43_framer_unpack.md R103, R105, R106. -/
def Obligations.UnpackPortIdentityBodies : Prop :=
  ∀ p ∈ [(0x39, Instr.unpackDelayResp), (0x33, .unpackPdelayResp), (0x3A, .unpackPdelayRespFu)],
    OnlyWord (BitVec.ofNat 32 p.1) p.2 ∧
    ∀ (s : State), ∃ t, exec p.2 s = .next t ∧ TimestampParsed s t ∧
      t.rx.reqclk.toNat = s.bufRead .ibuf 44 8 ∧ t.rx.reqport.toNat = s.bufRead .ibuf 52 2 ∧
      ParsedOnly s t { s.rx with
        tsSec := t.rx.tsSec, tsNs := t.rx.tsNs, reqclk := t.rx.reqclk, reqport := t.rx.reqport }

/-- 43_framer_unpack.md R99. -/
def Obligations.UnpackAnnounceBody : Prop :=
  OnlyWord 0x0000003B .unpackAnnounce ∧
  ∀ (s : State), ∃ t, exec .unpackAnnounce s = .next t ∧ TimestampParsed s t ∧
    t.rx.utcoff.toNat = s.bufRead .ibuf 44 2 ∧ t.rx.pri1.toNat = s.bufRead .ibuf 47 1 ∧
    t.rx.cls.toNat = s.bufRead .ibuf 48 1 ∧ t.rx.acc.toNat = s.bufRead .ibuf 49 1 ∧
    t.rx.variance.toNat = s.bufRead .ibuf 50 2 ∧ t.rx.pri2.toNat = s.bufRead .ibuf 52 1 ∧
    t.rx.gmid.toNat = s.bufRead .ibuf 53 8 ∧ t.rx.steps.toNat = s.bufRead .ibuf 61 2 ∧
    t.rx.tsrc.toNat = s.bufRead .ibuf 63 1 ∧
    ParsedOnly s t { t.rx with
      reqclk := s.rx.reqclk, reqport := s.rx.reqport, tgtclk := s.rx.tgtclk, tgtport := s.rx.tgtport,
      sbh := s.rx.sbh, bh := s.rx.bh, action := s.rx.action }

/-- 43_framer_unpack.md R107; `RX.ts_*` is not written. -/
def Obligations.UnpackManagementBody : Prop :=
  OnlyWord 0x0000003D .unpackManagement ∧
  ∀ (s : State), ∃ t, exec .unpackManagement s = .next t ∧
    t.rx.tgtclk.toNat = s.bufRead .ibuf 34 8 ∧ t.rx.tgtport.toNat = s.bufRead .ibuf 42 2 ∧
    t.rx.sbh.toNat = s.bufRead .ibuf 44 1 ∧ t.rx.bh.toNat = s.bufRead .ibuf 45 1 ∧
    t.rx.action.toNat = s.bufRead .ibuf 46 1 % 16 ∧
    ParsedOnly s t { s.rx with
      tgtclk := t.rx.tgtclk, tgtport := t.rx.tgtport, sbh := t.rx.sbh, bh := t.rx.bh,
      action := t.rx.action }

/-- 20_memory.md R44, 43_framer_unpack.md R97: a command of the parser learns nothing of the machine but the
first 64 bytes of IBUF; two machines that differ anywhere else get the same records. -/
def Obligations.UnpackReadsOnlyFirst64Bytes : Prop :=
  ∀ i ∈ unpackCommands, ∀ s s' : State, s.rx = s'.rx → s.rxh = s'.rxh →
    (∀ off, off < 64 → s.byteAt .ibuf off = s'.byteAt .ibuf off) →
    ∃ t t', exec i s = .next t ∧ exec i s' = .next t' ∧ t.rx = t'.rx ∧ t.rxh = t'.rxh

/-- 42_framer_pack.md R86 and 43_framer_unpack.md R98: UNPACKHDR recovers from every framed message, of each
of the nine types, the context it was framed from, with its type, length and controlField. -/
def Obligations.FramedHeadersParseBack : Prop :=
  ∀ p ∈ packTable, ∀ s : State, ∃ t, exec p.1 s = .next t ∧
    ∀ u : State, Received p.2.2.1 t u → ∃ v, exec .unpackHdr u = .next v ∧
      v.rxh = { transport := s.ctx.transport, msgtype := BitVec.ofNat 4 p.2.1,
                version := s.ctx.version, length := BitVec.ofNat 16 p.2.2.1, domain := s.ctx.domain,
                flags := s.ctx.flags, corr := s.ctx.corr, clkid := s.ctx.clkid, port := s.ctx.port,
                seq := s.ctx.seq, ctrl := BitVec.ofNat 8 p.2.2.2, logint := s.ctx.logint }

/-- 42_framer_pack.md R87 to R95 and 43_framer_unpack.md R99 to R107: each body command of the parser
recovers from a message framed by its own PACK command the payload it was framed from, and leaves the other
fields of `RX`. -/
def Obligations.FramedBodiesParseBack : Prop :=
  (∀ p ∈ [(Instr.packSync, Instr.unpackSync), (.packFollowUp, .unpackFollowUp),
      (.packDelayReq, .unpackDelayReq), (.packPdelayReq, .unpackPdelayReq)],
    ∀ s : State, ∃ t, exec p.1 s = .next t ∧ ∀ u : State, Received 44 t u →
      ∃ v, exec p.2 u = .next v ∧ v.rx = { u.rx with tsSec := s.w.sec, tsNs := s.w.ns }) ∧
  (∀ p ∈ [(Instr.packDelayResp, Instr.unpackDelayResp), (.packPdelayResp, .unpackPdelayResp),
      (.packPdelayRespFu, .unpackPdelayRespFu)],
    ∀ s : State, ∃ t, exec p.1 s = .next t ∧ ∀ u : State, Received 54 t u →
      ∃ v, exec p.2 u = .next v ∧ v.rx = { u.rx with
        tsSec := s.w.sec, tsNs := s.w.ns, reqclk := s.tx.reqclk, reqport := s.tx.reqport }) ∧
  (∀ s : State, ∃ t, exec .packAnnounce s = .next t ∧ ∀ u : State, Received 64 t u →
    ∃ v, exec .unpackAnnounce u = .next v ∧ v.rx = { u.rx with
      tsSec := s.w.sec, tsNs := s.w.ns, utcoff := s.tx.utcoff, pri1 := s.tx.pri1, cls := s.tx.cls,
      acc := s.tx.acc, variance := s.tx.variance, pri2 := s.tx.pri2, gmid := s.tx.gmid,
      steps := s.tx.steps, tsrc := s.tx.tsrc }) ∧
  ∀ s : State, ∃ t, exec .packManagement s = .next t ∧ ∀ u : State, Received 48 t u →
    ∃ v, exec .unpackManagement u = .next v ∧ v.rx = { u.rx with
      tgtclk := s.tx.tgtclk, tgtport := s.tx.tgtport, sbh := s.tx.sbh, bh := s.tx.bh,
      action := s.tx.action }

/-! ### The bus -/

/-- 20_memory.md R33, R34, R36: an access outside the sizes and alignments the rules allow is answered with an
error (a read with data 0) and changes S_BUSERR alone; in particular no command starts. Every other access
is answered without an error and sets no S_BUSERR: a read leaves it, and a write leaves it or, to STATUS with
a 1 at its position, clears it (R37). `pending` and `response` are the model's own fields (logs 2 and 3). -/
def Obligations.BusErrorsChangeOnlyTheirBit : Prop :=
  ∀ (s : State) (rest : List HostEvent) (a : BitVec 10) (n : AccessSize) (v : Word),
    (BusErrorAccess a.toNat n →
      step { s with pending := .read a n :: rest } =
        .next { s with pending := rest, response := some (.readError 0),
                       status := { s.status with sBusErr := true } } ∧
      step { s with pending := .write a n v :: rest } =
        .next { s with pending := rest, response := some .writeError,
                       status := { s.status with sBusErr := true } }) ∧
    (¬ BusErrorAccess a.toNat n →
      (∃ t, step { s with pending := .write a n v :: rest } = .next t ∧ t.response = some .written ∧
        t.status.sBusErr = (s.status.sBusErr && !(decide (a = 0x004) && v.getLsbD 11))) ∧
      ∃ t d, step { s with pending := .read a n :: rest } = .next t ∧ t.response = some (.readData d) ∧
        t.status.sBusErr = s.status.sBusErr)

/-- 20_memory.md R38: a legal read has no side effect on the unit, and may be repeated: it gives the same
data again. -/
def Obligations.LegalReadsHaveNoSideEffect : Prop :=
  ∀ (s : State) (rest : List HostEvent) (a : BitVec 10) (n : AccessSize), ¬ BusErrorAccess a.toNat n →
    ∃ d, step { s with pending := .read a n :: .read a n :: rest } =
        .next { s with pending := .read a n :: rest, response := some (.readData d) } ∧
      step { s with pending := .read a n :: rest, response := some (.readData d) } =
        .next { s with pending := rest, response := some (.readData d) }

/-- 20_memory.md R37: a write of `v` to STATUS clears the sticky bits whose position is 1 in `v`, and nothing
else changes. -/
def Obligations.StatusWriteClearsStickyBits : Prop :=
  ∀ (s : State) (rest : List HostEvent) (v : Word),
    ∃ t, step { s with pending := .write 0x004 .b4 v :: rest } = .next t ∧
      t = { s with pending := rest, response := some .written, status := t.status } ∧
      t.status.toWord = s.status.toWord &&& ~~~(v &&& 0x00000F00) ∧ SameBytes s t

/-- 10_state.md R28 and R22, the reading half: a 4-byte read of every register word returns its fields at
their positions, and a reserved word reads 0. -/
def Obligations.RegisterWordsReadTheirFields : Prop :=
  ∀ (s : State) (rest : List HostEvent) (a : BitVec 10), a.toNat < 0x200 → a.toNat % 4 = 0 →
    ∃ d, step { s with pending := .read a .b4 :: rest } =
        .next { s with pending := rest, response := some (.readData d) } ∧
      (∀ p ∈ registerValues s, p.1 = a.toNat → d.toNat = p.2) ∧
      (∀ i : TReg, a.toNat = 0x020 + 8 * i.val → d = (s.getT i).sec) ∧
      (∀ i : TReg, a.toNat = 0x024 + 8 * i.val → d = (s.getT i).ns) ∧
      (reservedWord a.toNat → d = 0)

/-- 20_memory.md R35: a legal write to a word of the register region other than CMD and STATUS sets exactly
the writable field bits of that word, and every other word and every buffer byte reads as before. -/
def Obligations.RegisterWritesSetTheirFields : Prop :=
  ∀ (s : State) (rest : List HostEvent) (a : BitVec 10) (v : Word),
    0x008 ≤ a.toNat → a.toNat < 0x200 → a.toNat % 4 = 0 →
    ∃ t, step { s with pending := .write a .b4 v :: rest } = .next t ∧
      readData a.toNat .b4 t =
        (readData a.toNat .b4 s &&& ~~~(writableBits a.toNat)) ||| (v &&& writableBits a.toNat) ∧
      (∀ b, b < 0x200 → b % 4 = 0 → b ≠ a.toNat → readData b .b4 t = readData b .b4 s) ∧
      SameBytes s t ∧ t.pending = rest ∧ t.response = some .written

/-- 20_memory.md R36 with the lanes of R32: a legal write in a buffer window sets the bytes it covers, the
byte at `off + j` from bits `8j+7:8j`, and nothing else; reading the same place returns those bytes in the
same lanes and zeros above. That a narrow access uses the low lanes is the model's reading (log 6). -/
def Obligations.WindowAccessesMoveTheirBytes : Prop :=
  ∀ (s : State) (rest : List HostEvent) (b : BufId) (off : Nat) (n : AccessSize) (v : Word) (a : BitVec 10),
    off < 256 → off % accessBytes n = 0 → a.toNat = windowBase b + off →
    ∃ t d, step { s with pending := .write a n v :: rest } = .next t ∧
      t = { s with pending := rest, response := some .written, obuf := t.obuf, ibuf := t.ibuf } ∧
      (∀ j, j < accessBytes n → t.byteAt b (off + j) = v.extractLsb' (8 * j) 8) ∧
      (∀ c m, ¬ (c = b ∧ off ≤ m ∧ m < off + accessBytes n) → t.byteAt c m = s.byteAt c m) ∧
      step { t with pending := .read a n :: rest } =
        .next { t with pending := rest, response := some (.readData d) } ∧
      (∀ j, j < accessBytes n → d.extractLsb' (8 * j) 8 = t.byteAt b (off + j)) ∧
      d.toNat < 256 ^ accessBytes n

/-- 20_memory.md R41. -/
def Obligations.BufferWordsReadLittleEndian : Prop :=
  ∀ (s : State) (rest : List HostEvent) (j : Nat), j < 64 →
    ∃ d, step { s with pending := .read (BitVec.ofNat 10 (0x200 + 4 * j)) .b4 :: rest } =
        .next { s with pending := rest, response := some (.readData d) } ∧
      d.toNat = (s.byteAt .obuf (4 * j)).toNat + (s.byteAt .obuf (4 * j + 1)).toNat * 2 ^ 8 +
        (s.byteAt .obuf (4 * j + 2)).toNat * 2 ^ 16 + (s.byteAt .obuf (4 * j + 3)).toNat * 2 ^ 24

/-- 70_reset_and_hazards.md R125: after reset, from whatever state, every register holds 0. That no buffer
byte counts as written any more, and that the interactions still pending stay, is the model's form of R126
and of the host (logs 4 and 5). -/
def Obligations.ResetZeroesEveryRegister : Prop :=
  ∀ (s : State) (rest : List HostEvent),
    ∃ t, step { s with pending := .reset :: rest } = .next t ∧
      (∀ i, t.getT i = ⟨0, 0⟩) ∧ t.sn = 0 ∧ t.w.sec = 0 ∧ t.w.ns = 0 ∧ t.uIn = 0 ∧ t.lOut = 0 ∧
      t.cmd = 0 ∧ t.status.toWord = 0 ∧ t.ctx = ⟨0, 0, 0, 0, 0, 0, 0, 0, 0⟩ ∧
      t.tx = ⟨0, 0, 0, 0, 0, 0, 0, 0, 0, 0, 0, 0, 0, 0, 0, 0⟩ ∧
      t.rxh = ⟨0, 0, 0, 0, 0, 0, 0, 0, 0, 0, 0, 0⟩ ∧
      t.rx = ⟨0, 0, 0, 0, 0, 0, 0, 0, 0, 0, 0, 0, 0, 0, 0, 0, 0, 0⟩ ∧
      t.obuf = [] ∧ t.ibuf = [] ∧ t.pending = rest ∧
      t.t = State.reset.t ∧ t.status = State.reset.status ∧ t.ctx = State.reset.ctx ∧
      t.tx = State.reset.tx ∧ t.rxh = State.reset.rxh ∧ t.rx = State.reset.rx

/-- 70_reset_and_hazards.md R130, 20_memory.md R43: a host that writes SN_LO, then CMD, then SN_HI runs SN2INT
on the new low word and the old high word; the new high word is in place afterwards. -/
def Obligations.CommandSeesTornScaledValue : Prop :=
  ∀ (s : State) (rd : TReg) (lo hi : Word),
    ∃ t : State, Host.Core.run Sys2Proof.core 3
        ({ s with pending := [.write 0x060 .b4 lo, .write 0x000 .b4 (encode (.sn2int rd .sn)),
            .write 0x064 .b4 hi] } : State) = .next t ∧
      t.getT rd = snToInternal (s.sn.extractLsb' 32 32 ++ lo) ∧ t.sn = hi ++ lo

/-- The only events that change a buffer byte (20_memory.md R36, R38, 42_framer_pack.md R96,
43_framer_unpack.md R108): a reset, a legal host write that covers it, or, for an OBUF byte below the
message's length, a PACK command; no read, no bus error, no other command. -/
def Obligations.BufferBytesChangeOnlyByTheirWriters : Prop :=
  ∀ (s t : State) (e : HostEvent) (rest : List HostEvent) (b : BufId) (off : Nat),
    s.pending = e :: rest → step s = .next t → t.byteAt b off ≠ s.byteAt b off →
    e = .reset ∨
    (∃ a n v, e = .write a n v ∧ ¬ BusErrorAccess a.toNat n ∧
      windowBase b + off ∈
        List.range' a.toNat (accessBytes n)) ∨
    (b = .obuf ∧ ∃ p ∈ packTable, e = .write 0x000 .b4 (encode p.1) ∧ off < p.2.2.1)

/-- 10_state.md R25, R26, R20: the host cannot write the receive records or `L_OUT`. `RXH` changes only by
reset or by UNPACKHDR, `RX` only by reset or by a body command of the parser, `L_OUT` only by reset or by
FLOG2. -/
def Obligations.ReadOnlyRecordsChangeOnlyByCommands : Prop :=
  ∀ (s t : State) (e : HostEvent) (rest : List HostEvent),
    s.pending = e :: rest → step s = .next t → e ≠ .reset →
    (t.rxh ≠ s.rxh → e = .write 0x000 .b4 (encode .unpackHdr)) ∧
    (t.rx ≠ s.rx → ∃ i ∈ unpackCommands, i ≠ .unpackHdr ∧ e = .write 0x000 .b4 (encode i)) ∧
    (t.lOut ≠ s.lOut → e = .write 0x000 .b4 (encode .flog2))

/-- 60_exceptions.md R113, 20_memory.md R37: a sticky bit that is 1 becomes 0 only by a reset or by a host write
of 1 at its position to STATUS; no command, no bus error and no other access clears one. -/
def Obligations.StickyBitsClearOnlyByHost : Prop :=
  ∀ (s t : State) (e : HostEvent) (rest : List HostEvent) (k : Nat), 8 ≤ k → k ≤ 11 →
    s.pending = e :: rest → step s = .next t →
    s.status.toWord.getLsbD k = true → t.status.toWord.getLsbD k = false →
    e = .reset ∨ ∃ v, e = .write 0x004 .b4 v ∧ v.getLsbD k = true

/-- 70_reset_and_hazards.md R132: a PACK of a shorter message leaves the bytes of a longer one beyond its
length, and a body command of the parser leaves the fields of another type. -/
def Obligations.StaleDataStays : Prop :=
  (∀ s : State, ∃ t u, exec .packAnnounce s = .next t ∧ exec .packSync t = .next u ∧
    u.bufRead .obuf 44 2 = s.tx.utcoff.toNat ∧ u.bufRead .obuf 53 8 = s.tx.gmid.toNat ∧
    (∀ off, 44 ≤ off → u.byteAt .obuf off = t.byteAt .obuf off) ∧ u.bufRead .obuf 2 2 = 44) ∧
  ∀ s : State, ∃ t u, exec .unpackDelayResp s = .next t ∧ exec .unpackSync t = .next u ∧
    u.rx.reqclk.toNat = s.bufRead .ibuf 44 8 ∧ u.rx.reqport.toNat = s.bufRead .ibuf 52 2
end

