-- ==== Sys2Proof/Laws/State.lean ====
section
/-! SUPPORT. What each shared update of the state does to each field: one lemma per field per update. Later
proofs cite these and never unfold a record update. -/

namespace Sys2Proof.Machine

/-! ### `T[i] <- x` -/

@[simp] theorem State.setT_t (s : State) (i : TReg) (x : InternalTime) : (s.setT i x).t = s.t.set i x := rfl
@[simp] theorem State.setT_sn (s : State) (i : TReg) (x : InternalTime) : (s.setT i x).sn = s.sn := rfl
@[simp] theorem State.setT_w (s : State) (i : TReg) (x : InternalTime) : (s.setT i x).w = s.w := rfl
@[simp] theorem State.setT_uIn (s : State) (i : TReg) (x : InternalTime) : (s.setT i x).uIn = s.uIn := rfl
@[simp] theorem State.setT_lOut (s : State) (i : TReg) (x : InternalTime) : (s.setT i x).lOut = s.lOut := rfl
@[simp] theorem State.setT_cmd (s : State) (i : TReg) (x : InternalTime) : (s.setT i x).cmd = s.cmd := rfl
@[simp] theorem State.setT_status (s : State) (i : TReg) (x : InternalTime) : (s.setT i x).status = s.status := rfl
@[simp] theorem State.setT_ctx (s : State) (i : TReg) (x : InternalTime) : (s.setT i x).ctx = s.ctx := rfl
@[simp] theorem State.setT_tx (s : State) (i : TReg) (x : InternalTime) : (s.setT i x).tx = s.tx := rfl
@[simp] theorem State.setT_rxh (s : State) (i : TReg) (x : InternalTime) : (s.setT i x).rxh = s.rxh := rfl
@[simp] theorem State.setT_rx (s : State) (i : TReg) (x : InternalTime) : (s.setT i x).rx = s.rx := rfl
@[simp] theorem State.setT_obuf (s : State) (i : TReg) (x : InternalTime) : (s.setT i x).obuf = s.obuf := rfl
@[simp] theorem State.setT_ibuf (s : State) (i : TReg) (x : InternalTime) : (s.setT i x).ibuf = s.ibuf := rfl
@[simp] theorem State.setT_resets (s : State) (i : TReg) (x : InternalTime) : (s.setT i x).resets = s.resets := rfl
@[simp] theorem State.setT_pending (s : State) (i : TReg) (x : InternalTime) : (s.setT i x).pending = s.pending := rfl
@[simp] theorem State.setT_response (s : State) (i : TReg) (x : InternalTime) : (s.setT i x).response = s.response := rfl

/-! ### The start of a command, and the conditions -/

@[simp] theorem State.beginCommand_t (s : State) : (s.beginCommand).t = s.t := rfl
@[simp] theorem State.beginCommand_sn (s : State) : (s.beginCommand).sn = s.sn := rfl
@[simp] theorem State.beginCommand_w (s : State) : (s.beginCommand).w = s.w := rfl
@[simp] theorem State.beginCommand_uIn (s : State) : (s.beginCommand).uIn = s.uIn := rfl
@[simp] theorem State.beginCommand_lOut (s : State) : (s.beginCommand).lOut = s.lOut := rfl
@[simp] theorem State.beginCommand_cmd (s : State) : (s.beginCommand).cmd = s.cmd := rfl
@[simp] theorem State.beginCommand_status (s : State) : (s.beginCommand).status = s.status.beginCommand := rfl
@[simp] theorem State.beginCommand_ctx (s : State) : (s.beginCommand).ctx = s.ctx := rfl
@[simp] theorem State.beginCommand_tx (s : State) : (s.beginCommand).tx = s.tx := rfl
@[simp] theorem State.beginCommand_rxh (s : State) : (s.beginCommand).rxh = s.rxh := rfl
@[simp] theorem State.beginCommand_rx (s : State) : (s.beginCommand).rx = s.rx := rfl
@[simp] theorem State.beginCommand_obuf (s : State) : (s.beginCommand).obuf = s.obuf := rfl
@[simp] theorem State.beginCommand_ibuf (s : State) : (s.beginCommand).ibuf = s.ibuf := rfl
@[simp] theorem State.beginCommand_resets (s : State) : (s.beginCommand).resets = s.resets := rfl
@[simp] theorem State.beginCommand_pending (s : State) : (s.beginCommand).pending = s.pending := rfl
@[simp] theorem State.beginCommand_response (s : State) : (s.beginCommand).response = s.response := rfl
@[simp] theorem State.raiseIllegal_t (s : State) (c : BitVec 4) : (s.raiseIllegal c).t = s.t := rfl
@[simp] theorem State.raiseIllegal_sn (s : State) (c : BitVec 4) : (s.raiseIllegal c).sn = s.sn := rfl
@[simp] theorem State.raiseIllegal_w (s : State) (c : BitVec 4) : (s.raiseIllegal c).w = s.w := rfl
@[simp] theorem State.raiseIllegal_uIn (s : State) (c : BitVec 4) : (s.raiseIllegal c).uIn = s.uIn := rfl
@[simp] theorem State.raiseIllegal_lOut (s : State) (c : BitVec 4) : (s.raiseIllegal c).lOut = s.lOut := rfl
@[simp] theorem State.raiseIllegal_cmd (s : State) (c : BitVec 4) : (s.raiseIllegal c).cmd = s.cmd := rfl
@[simp] theorem State.raiseIllegal_status (s : State) (c : BitVec 4) : (s.raiseIllegal c).status = s.status.illegal c := rfl
@[simp] theorem State.raiseIllegal_ctx (s : State) (c : BitVec 4) : (s.raiseIllegal c).ctx = s.ctx := rfl
@[simp] theorem State.raiseIllegal_tx (s : State) (c : BitVec 4) : (s.raiseIllegal c).tx = s.tx := rfl
@[simp] theorem State.raiseIllegal_rxh (s : State) (c : BitVec 4) : (s.raiseIllegal c).rxh = s.rxh := rfl
@[simp] theorem State.raiseIllegal_rx (s : State) (c : BitVec 4) : (s.raiseIllegal c).rx = s.rx := rfl
@[simp] theorem State.raiseIllegal_obuf (s : State) (c : BitVec 4) : (s.raiseIllegal c).obuf = s.obuf := rfl
@[simp] theorem State.raiseIllegal_ibuf (s : State) (c : BitVec 4) : (s.raiseIllegal c).ibuf = s.ibuf := rfl
@[simp] theorem State.raiseIllegal_resets (s : State) (c : BitVec 4) : (s.raiseIllegal c).resets = s.resets := rfl
@[simp] theorem State.raiseIllegal_pending (s : State) (c : BitVec 4) : (s.raiseIllegal c).pending = s.pending := rfl
@[simp] theorem State.raiseIllegal_response (s : State) (c : BitVec 4) : (s.raiseIllegal c).response = s.response := rfl
@[simp] theorem State.raiseFail_t (s : State) (c : BitVec 4) : (s.raiseFail c).t = s.t := rfl
@[simp] theorem State.raiseFail_sn (s : State) (c : BitVec 4) : (s.raiseFail c).sn = s.sn := rfl
@[simp] theorem State.raiseFail_w (s : State) (c : BitVec 4) : (s.raiseFail c).w = s.w := rfl
@[simp] theorem State.raiseFail_uIn (s : State) (c : BitVec 4) : (s.raiseFail c).uIn = s.uIn := rfl
@[simp] theorem State.raiseFail_lOut (s : State) (c : BitVec 4) : (s.raiseFail c).lOut = s.lOut := rfl
@[simp] theorem State.raiseFail_cmd (s : State) (c : BitVec 4) : (s.raiseFail c).cmd = s.cmd := rfl
@[simp] theorem State.raiseFail_status (s : State) (c : BitVec 4) : (s.raiseFail c).status = s.status.failed c := rfl
@[simp] theorem State.raiseFail_ctx (s : State) (c : BitVec 4) : (s.raiseFail c).ctx = s.ctx := rfl
@[simp] theorem State.raiseFail_tx (s : State) (c : BitVec 4) : (s.raiseFail c).tx = s.tx := rfl
@[simp] theorem State.raiseFail_rxh (s : State) (c : BitVec 4) : (s.raiseFail c).rxh = s.rxh := rfl
@[simp] theorem State.raiseFail_rx (s : State) (c : BitVec 4) : (s.raiseFail c).rx = s.rx := rfl
@[simp] theorem State.raiseFail_obuf (s : State) (c : BitVec 4) : (s.raiseFail c).obuf = s.obuf := rfl
@[simp] theorem State.raiseFail_ibuf (s : State) (c : BitVec 4) : (s.raiseFail c).ibuf = s.ibuf := rfl
@[simp] theorem State.raiseFail_resets (s : State) (c : BitVec 4) : (s.raiseFail c).resets = s.resets := rfl
@[simp] theorem State.raiseFail_pending (s : State) (c : BitVec 4) : (s.raiseFail c).pending = s.pending := rfl
@[simp] theorem State.raiseFail_response (s : State) (c : BitVec 4) : (s.raiseFail c).response = s.response := rfl
@[simp] theorem State.flagOvf_t (s : State) (c : BitVec 4) : (s.flagOvf c).t = s.t := rfl
@[simp] theorem State.flagOvf_sn (s : State) (c : BitVec 4) : (s.flagOvf c).sn = s.sn := rfl
@[simp] theorem State.flagOvf_w (s : State) (c : BitVec 4) : (s.flagOvf c).w = s.w := rfl
@[simp] theorem State.flagOvf_uIn (s : State) (c : BitVec 4) : (s.flagOvf c).uIn = s.uIn := rfl
@[simp] theorem State.flagOvf_lOut (s : State) (c : BitVec 4) : (s.flagOvf c).lOut = s.lOut := rfl
@[simp] theorem State.flagOvf_cmd (s : State) (c : BitVec 4) : (s.flagOvf c).cmd = s.cmd := rfl
@[simp] theorem State.flagOvf_status (s : State) (c : BitVec 4) : (s.flagOvf c).status = s.status.overflowed c := rfl
@[simp] theorem State.flagOvf_ctx (s : State) (c : BitVec 4) : (s.flagOvf c).ctx = s.ctx := rfl
@[simp] theorem State.flagOvf_tx (s : State) (c : BitVec 4) : (s.flagOvf c).tx = s.tx := rfl
@[simp] theorem State.flagOvf_rxh (s : State) (c : BitVec 4) : (s.flagOvf c).rxh = s.rxh := rfl
@[simp] theorem State.flagOvf_rx (s : State) (c : BitVec 4) : (s.flagOvf c).rx = s.rx := rfl
@[simp] theorem State.flagOvf_obuf (s : State) (c : BitVec 4) : (s.flagOvf c).obuf = s.obuf := rfl
@[simp] theorem State.flagOvf_ibuf (s : State) (c : BitVec 4) : (s.flagOvf c).ibuf = s.ibuf := rfl
@[simp] theorem State.flagOvf_resets (s : State) (c : BitVec 4) : (s.flagOvf c).resets = s.resets := rfl
@[simp] theorem State.flagOvf_pending (s : State) (c : BitVec 4) : (s.flagOvf c).pending = s.pending := rfl
@[simp] theorem State.flagOvf_response (s : State) (c : BitVec 4) : (s.flagOvf c).response = s.response := rfl

/-! ### The bus -/

@[simp] theorem State.respond_t (s : State) (r : BusResponse) : (s.respond r).t = s.t := rfl
@[simp] theorem State.respond_sn (s : State) (r : BusResponse) : (s.respond r).sn = s.sn := rfl
@[simp] theorem State.respond_w (s : State) (r : BusResponse) : (s.respond r).w = s.w := rfl
@[simp] theorem State.respond_uIn (s : State) (r : BusResponse) : (s.respond r).uIn = s.uIn := rfl
@[simp] theorem State.respond_lOut (s : State) (r : BusResponse) : (s.respond r).lOut = s.lOut := rfl
@[simp] theorem State.respond_cmd (s : State) (r : BusResponse) : (s.respond r).cmd = s.cmd := rfl
@[simp] theorem State.respond_status (s : State) (r : BusResponse) : (s.respond r).status = s.status := rfl
@[simp] theorem State.respond_ctx (s : State) (r : BusResponse) : (s.respond r).ctx = s.ctx := rfl
@[simp] theorem State.respond_tx (s : State) (r : BusResponse) : (s.respond r).tx = s.tx := rfl
@[simp] theorem State.respond_rxh (s : State) (r : BusResponse) : (s.respond r).rxh = s.rxh := rfl
@[simp] theorem State.respond_rx (s : State) (r : BusResponse) : (s.respond r).rx = s.rx := rfl
@[simp] theorem State.respond_obuf (s : State) (r : BusResponse) : (s.respond r).obuf = s.obuf := rfl
@[simp] theorem State.respond_ibuf (s : State) (r : BusResponse) : (s.respond r).ibuf = s.ibuf := rfl
@[simp] theorem State.respond_resets (s : State) (r : BusResponse) : (s.respond r).resets = s.resets := rfl
@[simp] theorem State.respond_pending (s : State) (r : BusResponse) : (s.respond r).pending = s.pending := rfl
@[simp] theorem State.respond_response (s : State) (r : BusResponse) : (s.respond r).response = some r := rfl
@[simp] theorem State.busError_t (s : State) : (s.busError).t = s.t := rfl
@[simp] theorem State.busError_sn (s : State) : (s.busError).sn = s.sn := rfl
@[simp] theorem State.busError_w (s : State) : (s.busError).w = s.w := rfl
@[simp] theorem State.busError_uIn (s : State) : (s.busError).uIn = s.uIn := rfl
@[simp] theorem State.busError_lOut (s : State) : (s.busError).lOut = s.lOut := rfl
@[simp] theorem State.busError_cmd (s : State) : (s.busError).cmd = s.cmd := rfl
@[simp] theorem State.busError_status (s : State) : (s.busError).status = { s.status with sBusErr := true } := rfl
@[simp] theorem State.busError_ctx (s : State) : (s.busError).ctx = s.ctx := rfl
@[simp] theorem State.busError_tx (s : State) : (s.busError).tx = s.tx := rfl
@[simp] theorem State.busError_rxh (s : State) : (s.busError).rxh = s.rxh := rfl
@[simp] theorem State.busError_rx (s : State) : (s.busError).rx = s.rx := rfl
@[simp] theorem State.busError_obuf (s : State) : (s.busError).obuf = s.obuf := rfl
@[simp] theorem State.busError_ibuf (s : State) : (s.busError).ibuf = s.ibuf := rfl
@[simp] theorem State.busError_resets (s : State) : (s.busError).resets = s.resets := rfl
@[simp] theorem State.busError_pending (s : State) : (s.busError).pending = s.pending := rfl
@[simp] theorem State.busError_response (s : State) : (s.busError).response = s.response := rfl

/-! ### The buffers: every register stays -/

@[simp] theorem State.setBuf_t (s : State) (b : BufId) (m : List Host.Cell) : (s.setBuf b m).t = s.t := by cases b <;> rfl
@[simp] theorem State.setBuf_sn (s : State) (b : BufId) (m : List Host.Cell) : (s.setBuf b m).sn = s.sn := by cases b <;> rfl
@[simp] theorem State.setBuf_w (s : State) (b : BufId) (m : List Host.Cell) : (s.setBuf b m).w = s.w := by cases b <;> rfl
@[simp] theorem State.setBuf_uIn (s : State) (b : BufId) (m : List Host.Cell) : (s.setBuf b m).uIn = s.uIn := by cases b <;> rfl
@[simp] theorem State.setBuf_lOut (s : State) (b : BufId) (m : List Host.Cell) : (s.setBuf b m).lOut = s.lOut := by cases b <;> rfl
@[simp] theorem State.setBuf_cmd (s : State) (b : BufId) (m : List Host.Cell) : (s.setBuf b m).cmd = s.cmd := by cases b <;> rfl
@[simp] theorem State.setBuf_status (s : State) (b : BufId) (m : List Host.Cell) : (s.setBuf b m).status = s.status := by cases b <;> rfl
@[simp] theorem State.setBuf_ctx (s : State) (b : BufId) (m : List Host.Cell) : (s.setBuf b m).ctx = s.ctx := by cases b <;> rfl
@[simp] theorem State.setBuf_tx (s : State) (b : BufId) (m : List Host.Cell) : (s.setBuf b m).tx = s.tx := by cases b <;> rfl
@[simp] theorem State.setBuf_rxh (s : State) (b : BufId) (m : List Host.Cell) : (s.setBuf b m).rxh = s.rxh := by cases b <;> rfl
@[simp] theorem State.setBuf_rx (s : State) (b : BufId) (m : List Host.Cell) : (s.setBuf b m).rx = s.rx := by cases b <;> rfl
@[simp] theorem State.setBuf_resets (s : State) (b : BufId) (m : List Host.Cell) : (s.setBuf b m).resets = s.resets := by cases b <;> rfl
@[simp] theorem State.setBuf_pending (s : State) (b : BufId) (m : List Host.Cell) : (s.setBuf b m).pending = s.pending := by cases b <;> rfl
@[simp] theorem State.setBuf_response (s : State) (b : BufId) (m : List Host.Cell) : (s.setBuf b m).response = s.response := by cases b <;> rfl
@[simp] theorem State.setBytes_t (s : State) (b : BufId) (k : Nat) (xs : List Byte) : (s.setBytes b k xs).t = s.t := by simp [State.setBytes]
@[simp] theorem State.setBytes_sn (s : State) (b : BufId) (k : Nat) (xs : List Byte) : (s.setBytes b k xs).sn = s.sn := by simp [State.setBytes]
@[simp] theorem State.setBytes_w (s : State) (b : BufId) (k : Nat) (xs : List Byte) : (s.setBytes b k xs).w = s.w := by simp [State.setBytes]
@[simp] theorem State.setBytes_uIn (s : State) (b : BufId) (k : Nat) (xs : List Byte) : (s.setBytes b k xs).uIn = s.uIn := by simp [State.setBytes]
@[simp] theorem State.setBytes_lOut (s : State) (b : BufId) (k : Nat) (xs : List Byte) : (s.setBytes b k xs).lOut = s.lOut := by simp [State.setBytes]
@[simp] theorem State.setBytes_cmd (s : State) (b : BufId) (k : Nat) (xs : List Byte) : (s.setBytes b k xs).cmd = s.cmd := by simp [State.setBytes]
@[simp] theorem State.setBytes_status (s : State) (b : BufId) (k : Nat) (xs : List Byte) : (s.setBytes b k xs).status = s.status := by simp [State.setBytes]
@[simp] theorem State.setBytes_ctx (s : State) (b : BufId) (k : Nat) (xs : List Byte) : (s.setBytes b k xs).ctx = s.ctx := by simp [State.setBytes]
@[simp] theorem State.setBytes_tx (s : State) (b : BufId) (k : Nat) (xs : List Byte) : (s.setBytes b k xs).tx = s.tx := by simp [State.setBytes]
@[simp] theorem State.setBytes_rxh (s : State) (b : BufId) (k : Nat) (xs : List Byte) : (s.setBytes b k xs).rxh = s.rxh := by simp [State.setBytes]
@[simp] theorem State.setBytes_rx (s : State) (b : BufId) (k : Nat) (xs : List Byte) : (s.setBytes b k xs).rx = s.rx := by simp [State.setBytes]
@[simp] theorem State.setBytes_resets (s : State) (b : BufId) (k : Nat) (xs : List Byte) : (s.setBytes b k xs).resets = s.resets := by simp [State.setBytes]
@[simp] theorem State.setBytes_pending (s : State) (b : BufId) (k : Nat) (xs : List Byte) : (s.setBytes b k xs).pending = s.pending := by simp [State.setBytes]
@[simp] theorem State.setBytes_response (s : State) (b : BufId) (k : Nat) (xs : List Byte) : (s.setBytes b k xs).response = s.response := by simp [State.setBytes]

@[simp] theorem State.setBuf_buf (s : State) (b : BufId) (m : List Host.Cell) :
    (s.setBuf b m).buf b = m := by cases b <;> rfl

theorem State.setBuf_buf_other (s : State) {b c : BufId} (m : List Host.Cell) (h : c ≠ b) :
    (s.setBuf b m).buf c = s.buf c := by cases b <;> cases c <;> first | contradiction | rfl

@[simp] theorem State.setBuf_setBuf (s : State) (b : BufId) (m m' : List Host.Cell) :
    (s.setBuf b m).setBuf b m' = s.setBuf b m' := by cases b <;> rfl

/-! ### STATUS as a word (10_state.md R22) -/

/-- The sticky bits in their positions. -/
theorem Status.toWord_sticky (st : Status) :
    st.toWord.getLsbD 8 = st.sFail ∧ st.toWord.getLsbD 9 = st.sOvf ∧
      st.toWord.getLsbD 10 = st.sIll ∧ st.toWord.getLsbD 11 = st.sBusErr := by
  simp only [Status.toWord, BitVec.getLsbD_append]
  simp

/-! ### The register file -/

theorem State.getT_setT (s : State) (i j : TReg) (x : InternalTime) :
    (s.setT i x).getT j = if j = i then x else s.getT j := by
  simp only [State.getT, State.setT, Fin.getElem_fin, Vector.getElem_set, Fin.ext_iff]
  split <;> split <;> first | rfl | omega

@[simp] theorem State.getT_setT_same (s : State) (i : TReg) (x : InternalTime) :
    (s.setT i x).getT i = x := by simp [State.getT_setT]

theorem State.getT_setT_other (s : State) {i j : TReg} (x : InternalTime) (h : j ≠ i) :
    (s.setT i x).getT j = s.getT j := by simp [State.getT_setT, h]

/-- `getT` reads the register file and nothing else. -/
theorem State.getT_congr {s s' : State} (h : s.t = s'.t) (i : TReg) : s.getT i = s'.getT i := by
  simp [State.getT, h]

@[simp] theorem State.getT_beginCommand (s : State) (i : TReg) :
    s.beginCommand.getT i = s.getT i := rfl

@[simp] theorem State.getT_flagOvf (s : State) (c : BitVec 4) (i : TReg) :
    (s.flagOvf c).getT i = s.getT i := rfl

@[simp] theorem State.getT_raiseFail (s : State) (c : BitVec 4) (i : TReg) :
    (s.raiseFail c).getT i = s.getT i := rfl

end Sys2Proof.Machine
end

