-- ==== Sys2Proof/Laws/Buffer.lean ====
section
/-! SUPPORT. What the buffer operations do: reads after writes, the canonical form, and the bytes of a
number. -/

namespace Sys2Proof.Machine

/-! ### One byte -/

theorem cellGet_cellSet (m : List Host.Cell) (k j : Nat) (x : Byte) :
    cellGet (cellSet m k x) j = if j = k then some x else cellGet m j := by
  induction m with
  | nil => simp [cellSet, cellGet]
  | cons c rest ih =>
    obtain ⟨a, y⟩ := c
    simp only [cellSet]
    by_cases hlt : k < a
    · simp only [hlt, if_true]; simp [cellGet]
    by_cases he : k = a
    · subst he
      simp only [Nat.lt_irrefl, if_false, if_true, cellGet]
      split <;> rfl
    · simp only [hlt, he, if_false, cellGet, ih]
      split
      · rw [if_neg (by omega)]
      · rfl

theorem mem_cellSet {m : List Host.Cell} {k : Nat} {x : Byte} {c : Host.Cell}
    (h : c ∈ cellSet m k x) : c = (k, x) ∨ c ∈ m := by
  induction m with
  | nil => simpa [cellSet] using h
  | cons d rest ih =>
    obtain ⟨a, y⟩ := d
    simp only [cellSet] at h
    split at h
    · simpa using h
    · split at h
      · rcases List.mem_cons.1 h with h | h
        · exact .inl h
        · exact .inr (List.mem_cons_of_mem _ h)
      · rcases List.mem_cons.1 h with h | h
        · exact .inr (h ▸ List.mem_cons_self)
        · rcases ih h with h | h
          · exact .inl h
          · exact .inr (List.mem_cons_of_mem _ h)

/-- A byte write within the buffer keeps the canonical form. -/
theorem Memory.wf_cellSet {m : List Host.Cell} {k : Nat} (x : Byte) (h : Memory.wf m)
    (hk : k < Config.bufSize) : Memory.wf (cellSet m k x) := by
  refine ⟨?_, fun c hc => ?_⟩
  · have hs := h.1
    clear h
    induction m with
    | nil => simp [cellSet]
    | cons d rest ih =>
      obtain ⟨a, y⟩ := d
      obtain ⟨h1, h2⟩ := List.pairwise_cons.1 hs
      simp only [cellSet]
      split
      · refine List.pairwise_cons.2 ⟨fun e he => ?_, hs⟩
        rcases List.mem_cons.1 he with rfl | he
        · assumption
        · exact Nat.lt_trans ‹_› (h1 e he)
      · split
        · subst ‹k = a›
          exact List.pairwise_cons.2 ⟨h1, h2⟩
        · refine List.pairwise_cons.2 ⟨fun e he => ?_, ih h2⟩
          rcases mem_cellSet he with rfl | he
          · show a < k; omega
          · exact h1 e he
  · rcases mem_cellSet hc with rfl | hc
    · exact hk
    · exact h.2 c hc

/-! ### Consecutive bytes -/

theorem cellGet_cellsSet (xs : List Byte) (m : List Host.Cell) (off j : Nat) :
    cellGet (cellsSet m off xs) j =
      if off ≤ j ∧ j < off + xs.length then xs[j - off]? else cellGet m j := by
  induction xs generalizing m off with
  | nil => simp [cellsSet]
  | cons x xs ih =>
    simp only [cellsSet, ih, cellGet_cellSet, List.length_cons]
    by_cases h1 : off + 1 ≤ j ∧ j < off + 1 + xs.length
    · rw [if_pos h1, if_pos (by omega), show j - off = (j - (off + 1)) + 1 by omega,
        List.getElem?_cons_succ]
    · rw [if_neg h1]
      by_cases h2 : j = off
      · subst h2; simp
      · rw [if_neg h2, if_neg (by omega)]

theorem Memory.wf_cellsSet (xs : List Byte) {m : List Host.Cell} {off : Nat} (h : Memory.wf m)
    (hk : off + xs.length ≤ Config.bufSize) : Memory.wf (cellsSet m off xs) := by
  induction xs generalizing m off with
  | nil => exact h
  | cons x xs ih =>
    simp only [List.length_cons] at hk
    exact ih (Memory.wf_cellSet x h (by omega)) (by omega)

/-! ### The state's bytes -/

/-- A buffer byte reads from the buffer and the reset count, and from nothing else. -/
theorem State.byteAt_congr {s s' : State} {b : BufId} (hb : s.buf b = s'.buf b)
    (hr : s.resets = s'.resets) (k : Nat) : s.byteAt b k = s'.byteAt b k := by
  simp [State.byteAt, hb, hr]

theorem State.bufRead_congr {s s' : State} {b c : BufId} {off off' n : Nat}
    (h : ∀ k < n, s.byteAt b (off + k) = s'.byteAt c (off' + k)) :
    s.bufRead b off n = s'.bufRead c off' n := by
  induction n with
  | zero => rfl
  | succ n ih => rw [State.bufRead, State.bufRead, ih fun k hk => h k (by omega), h n (by omega)]

theorem State.bufRead_lt (s : State) (b : BufId) (off n : Nat) : s.bufRead b off n < 256 ^ n := by
  induction n with
  | zero => simp [State.bufRead]
  | succ n ih =>
    have := (s.byteAt b (off + n)).isLt
    rw [State.bufRead, Nat.pow_succ]
    omega

/-- What a byte reads as after consecutive bytes were written. -/
theorem State.byteAt_setBytes (s : State) (b c : BufId) (off k : Nat) (xs : List Byte) :
    (s.setBytes b off xs).byteAt c k =
      if c = b ∧ off ≤ k ∧ k < off + xs.length then xs.getD (k - off) 0 else s.byteAt c k := by
  by_cases hc : c = b
  · subst hc
    simp only [State.byteAt, State.setBytes, State.setBuf_buf, State.setBuf_resets, true_and,
      cellGet_cellsSet]
    split
    · rw [List.getD_eq_getElem?_getD, List.getElem?_eq_getElem (by omega)]; rfl
    · rfl
  · simp only [hc, false_and, if_false]
    exact State.byteAt_congr (State.setBuf_buf_other _ _ hc) (by simp) k

theorem beBytes_length (n v : Nat) : (beBytes n v).length = n := by
  induction n with
  | zero => rfl
  | succ n ih => simp [beBytes, ih]

theorem leBytes_length (n v : Nat) : (leBytes n v).length = n := by
  induction n generalizing v with
  | zero => rfl
  | succ n ih => simp [leBytes, ih]

theorem beBytes_getD (n v k : Nat) (h : k < n) :
    (beBytes n v).getD k 0 = BitVec.ofNat 8 (v / 256 ^ (n - 1 - k)) := by
  induction n generalizing k with
  | zero => omega
  | succ n ih =>
    cases k with
    | zero => simp [beBytes]
    | succ k =>
      rw [beBytes, List.getD_cons_succ, ih k (by omega)]
      congr 3
      omega

theorem leBytes_getD (n v k : Nat) (h : k < n) :
    (leBytes n v).getD k 0 = BitVec.ofNat 8 (v / 256 ^ k) := by
  induction n generalizing v k with
  | zero => omega
  | succ n ih =>
    cases k with
    | zero => simp [leBytes]
    | succ k =>
      rw [leBytes, List.getD_cons_succ, ih (v / 256) k (by omega), Nat.div_div_eq_div_mul,
        Nat.pow_succ, Nat.mul_comm]

/-- What a byte reads as after `BufWrite(b, off, n, v)` (00_scope.md R10). -/
theorem State.byteAt_bufWrite (s : State) (b c : BufId) (off n v k : Nat) :
    (s.bufWrite b off n v).byteAt c k =
      if c = b ∧ off ≤ k ∧ k < off + n then BitVec.ofNat 8 (v / 256 ^ (off + n - 1 - k))
      else s.byteAt c k := by
  rw [State.bufWrite, State.byteAt_setBytes, beBytes_length]
  split
  · rw [beBytes_getD _ _ _ (by omega)]
    congr 3
    omega
  · rfl

/-- What a byte reads as after the bus lanes wrote `n` bytes (20_memory.md R32). -/
theorem State.byteAt_laneWrite (s : State) (b c : BufId) (off n v k : Nat) :
    (s.laneWrite b off n v).byteAt c k =
      if c = b ∧ off ≤ k ∧ k < off + n then BitVec.ofNat 8 (v / 256 ^ (k - off))
      else s.byteAt c k := by
  rw [State.laneWrite, State.byteAt_setBytes, leBytes_length]
  split
  · rw [leBytes_getD _ _ _ (by omega)]
  · rfl

/-- `BufRead` after a `BufWrite` to the same place gives the number written, cut to `8n` bits. -/
theorem State.bufRead_bufWrite (s : State) (b : BufId) (off n v : Nat) :
    (s.bufWrite b off n v).bufRead b off n = v % 256 ^ n := by
  suffices h : ∀ m ≤ n, (s.bufWrite b off n v).bufRead b off m = v / 256 ^ (n - m) % 256 ^ m by
    simpa using h n (Nat.le_refl n)
  intro m
  induction m with
  | zero => simp [State.bufRead, Nat.mod_one]
  | succ m ih =>
    intro hm
    rw [State.bufRead, ih (by omega), State.byteAt_bufWrite, if_pos ⟨rfl, by omega, by omega⟩,
      BitVec.toNat_ofNat, show off + n - 1 - (off + m) = n - (m + 1) by omega,
      show n - m = (n - (m + 1)) + 1 by omega, Nat.pow_succ 256 (n - (m + 1)),
      ← Nat.div_div_eq_div_mul, Nat.pow_succ 256 m, Nat.mul_comm (256 ^ m) 256,
      Nat.mod_mul]
    omega

/-- `BufRead` of bytes a `BufWrite` did not write gives what it gave before. -/
theorem State.bufRead_bufWrite_other (s : State) (b c : BufId) {off n off' n' : Nat} (v : Nat)
    (h : c ≠ b ∨ off' + n' ≤ off ∨ off + n ≤ off') :
    (s.bufWrite b off n v).bufRead c off' n' = s.bufRead c off' n' := by
  refine State.bufRead_congr fun k hk => ?_
  rw [State.byteAt_bufWrite, if_neg]
  rintro ⟨rfl, h1, h2⟩
  rcases h with h | h | h
  · exact h rfl
  · omega
  · omega

end Sys2Proof.Machine
end

