-- ==== Sys2Proof/Laws/Time.lean ====
section
/-! SUPPORT. The arithmetic of the time commands: `canon` and the normalization invariant, reading back the
patterns of integers, and what `writeNormalized` does. -/

namespace Sys2Proof.Machine

/-! ### `canon` (00_scope.md R11, 10_state.md R16) -/

theorem canon_total (X : Int) : (canon X).1 * 1000000000 + (canon X).2 = X := by
  simp only [canon, Config.nsPerS]; omega

/-- A pair of integers is the quotient and remainder of truncating division when the remainder is small and
has the sign of the whole. -/
theorem tdiv_unique {X q r m : Int} (hm : 0 < m) (h : q * m + r = X) (h1 : r.natAbs < m.natAbs)
    (h2 : 0 ≤ X → 0 ≤ r) (h3 : X ≤ 0 → r ≤ 0) : X.tdiv m = q := by
  rcases Int.le_total 0 X with hX | hX
  · rw [Int.tdiv_eq_ediv_of_nonneg hX]
    have := h2 hX
    rw [show X = r + q * m by omega, Int.add_mul_ediv_right _ _ (by omega),
      Int.ediv_eq_zero_of_lt this (by omega)]
    omega
  · have := h3 hX
    have hn : (-X).tdiv m = -q := by
      rw [Int.tdiv_eq_ediv_of_nonneg (by omega), show -X = -r + -q * m by rw [Int.neg_mul]; omega,
        Int.add_mul_ediv_right _ _ (by omega), Int.ediv_eq_zero_of_lt (by omega) (by omega)]
      omega
    rw [Int.neg_tdiv] at hn
    omega

theorem tmod_bounds (X : Int) {m : Int} (hm : 0 < m) :
    (X - X.tdiv m * m).natAbs < m.natAbs ∧ (0 ≤ X → 0 ≤ X - X.tdiv m * m) ∧
      (X ≤ 0 → X - X.tdiv m * m ≤ 0) := by
  have e : X - X.tdiv m * m = X.tmod m := by
    have := Int.mul_tdiv_add_tmod X m
    rw [Int.mul_comm] at this
    omega
  rw [e]
  refine ⟨?_, fun h => Int.tmod_nonneg m h, fun h => ?_⟩
  · rw [Int.natAbs_tmod]
    exact Nat.mod_lt _ (by omega)
  · have := Int.tmod_nonneg m (show 0 ≤ -X by omega)
    rw [Int.neg_tmod] at this
    omega

theorem Normalized.of_signs {sec ns : Int} (h : ns.natAbs < 1000000000) (hp : 0 < sec → 0 ≤ ns)
    (hn : sec < 0 → ns ≤ 0) : Normalized sec ns := by
  refine ⟨h, fun h1 h2 => ?_⟩
  rcases Int.lt_trichotomy sec 0 with hs | hs | hs
  · have := hn hs
    rw [Int.sign_eq_neg_one_of_neg hs, Int.sign_eq_neg_one_of_neg (by omega)]
  · omega
  · have := hp hs
    rw [Int.sign_eq_one_of_pos hs, Int.sign_eq_one_of_pos (by omega)]

theorem Normalized.signs {sec ns : Int} (h : Normalized sec ns) :
    (0 < sec → 0 ≤ ns) ∧ (sec < 0 → ns ≤ 0) := by
  refine ⟨fun hs => ?_, fun hs => ?_⟩ <;> by_contra hc
  · have := h.2 (by omega) (by omega)
    rw [Int.sign_eq_one_of_pos hs, Int.sign_eq_neg_one_of_neg (by omega)] at this
    omega
  · have := h.2 (by omega) (by omega)
    rw [Int.sign_eq_neg_one_of_neg hs, Int.sign_eq_one_of_pos (by omega)] at this
    omega

theorem canon_normalized (X : Int) : Normalized (canon X).1 (canon X).2 := by
  obtain ⟨h1, h2, h3⟩ := tmod_bounds X (m := 1000000000) (by omega)
  simp only [canon, Config.nsPerS]
  exact .of_signs (by simpa using h1) (fun _ => h2 (by omega)) (fun _ => h3 (by omega))

theorem canon_eq_of_normalized {X sec ns : Int} (hn : Normalized sec ns)
    (h : sec * 1000000000 + ns = X) : canon X = (sec, ns) := by
  obtain ⟨hp, hm⟩ := hn.signs
  have h1 := hn.1
  have : X.tdiv 1000000000 = sec :=
    tdiv_unique (by omega) h (by simpa using h1) (by omega) (by omega)
  simp only [canon, Config.nsPerS, this, Prod.mk.injEq, true_and]
  omega

/-! ### Patterns of integers -/

theorem toInt_ofInt32 {x : Int} (h : -2 ^ 31 ≤ x ∧ x ≤ 2 ^ 31 - 1) : (BitVec.ofInt 32 x).toInt = x := by
  rw [BitVec.toInt_ofInt, Int.bmod_eq_of_le (by omega) (by omega)]

theorem toInt_ofInt64 {x : Int} (h : -2 ^ 63 ≤ x ∧ x ≤ 2 ^ 63 - 1) : (BitVec.ofInt 64 x).toInt = x := by
  rw [BitVec.toInt_ofInt, Int.bmod_eq_of_le (by omega) (by omega)]

theorem toInt32_bounds (x : BitVec 32) : -2 ^ 31 ≤ x.toInt ∧ x.toInt ≤ 2 ^ 31 - 1 := by
  have h1 := BitVec.le_toInt x
  have h2 := BitVec.toInt_lt (x := x)
  norm_num at h1 h2 ⊢
  omega

theorem toInt64_bounds (x : BitVec 64) : -2 ^ 63 ≤ x.toInt ∧ x.toInt ≤ 2 ^ 63 - 1 := by
  have h1 := BitVec.le_toInt x
  have h2 := BitVec.toInt_lt (x := x)
  norm_num at h1 h2 ⊢
  omega

theorem InternalTime.ext_toInt {x y : InternalTime} (h1 : x.sec.toInt = y.sec.toInt)
    (h2 : x.ns.toInt = y.ns.toInt) : x = y := by
  cases x; cases y
  simp only [InternalTime.mk.injEq]
  exact ⟨BitVec.eq_of_toInt_eq h1, BitVec.eq_of_toInt_eq h2⟩

theorem ofInts_ns_toInt {q r : Int} (h : r.natAbs < 1000000000) :
    (InternalTime.ofInts q r).ns.toInt = r := toInt_ofInt32 (by omega)

theorem fitsInt32_iff (q : Int) : fitsInt32 q = true ↔ -2 ^ 31 ≤ q ∧ q ≤ 2 ^ 31 - 1 := by
  simp [fitsInt32]

theorem fitsInt64_iff (q : Int) : fitsInt64 q = true ↔ -2 ^ 63 ≤ q ∧ q ≤ 2 ^ 63 - 1 := by
  simp [fitsInt64]

/-! ### `writeNormalized`: everything it can do -/

theorem State.writeNormalized_getT (s : State) (rd : TReg) (X : Int) :
    (s.writeNormalized rd X).getT rd = .ofInts (canon X).1 (canon X).2 := by
  simp [State.writeNormalized]

theorem State.writeNormalized_getT_other (s : State) {rd j : TReg} (X : Int) (h : j ≠ rd) :
    (s.writeNormalized rd X).getT j = s.getT j := by
  simp only [State.writeNormalized, State.getT_setT_other _ _ h]
  split <;> rfl

theorem State.writeNormalized_status (s : State) (rd : TReg) (X : Int) :
    (s.writeNormalized rd X).status =
      if -2 ^ 31 ≤ (canon X).1 ∧ (canon X).1 ≤ 2 ^ 31 - 1 then s.status else s.status.overflowed 5 := by
  simp only [State.writeNormalized, State.setT_status]
  by_cases h : fitsInt32 (canon X).1 = true
  · rw [if_pos h, if_pos ((fitsInt32_iff _).1 h)]
  · rw [if_neg h, if_neg (fun h' => h ((fitsInt32_iff _).2 h'))]
    rfl

theorem State.writeNormalized_frame (s : State) (rd : TReg) (X : Int) :
    s.writeNormalized rd X =
      { s with t := (s.writeNormalized rd X).t, status := (s.writeNormalized rd X).status } := by
  simp only [State.writeNormalized, State.setT]
  split <;> rfl

end Sys2Proof.Machine
end

