-- ==== Sys2Proof/Laws/Codec.lean ====
section
/-! SUPPORT. What the framer and the parser do: a message is a chain of adjacent fields, so each field reads
back as it was written and nothing outside the message changes; and what a parsed field holds. -/

namespace Sys2Proof.Machine

/-- The fields of `fs` follow each other without gaps from offset `o` to offset `e`. -/
def Chain : Nat → List FieldWrite → Nat → Prop
  | o, [], e => o = e
  | o, f :: fs, e => f.off = o ∧ Chain (o + f.n) fs e

theorem Chain.le {o e : Nat} {fs : List FieldWrite} (h : Chain o fs e) : o ≤ e := by
  induction fs generalizing o with
  | nil => exact Nat.le_of_eq h
  | cons f fs ih => have := ih h.2; omega

@[simp] theorem State.writeFields_nil (s : State) : s.writeFields [] = s := rfl

@[simp] theorem State.writeFields_cons (s : State) (f : FieldWrite) (fs : List FieldWrite) :
    s.writeFields (f :: fs) = (s.bufWrite .obuf f.off f.n f.v).writeFields fs := rfl

/-- A list of field writes replaces OBUF and nothing else. -/
theorem State.writeFields_eq (s : State) (fs : List FieldWrite) :
    s.writeFields fs = { s with obuf := (s.writeFields fs).obuf } := by
  induction fs generalizing s with
  | nil => rfl
  | cons f fs ih => rw [State.writeFields_cons, ih]; rfl

theorem State.writeFields_byteAt_ibuf (s : State) (fs : List FieldWrite) (k : Nat) :
    (s.writeFields fs).byteAt .ibuf k = s.byteAt .ibuf k := by
  rw [State.writeFields_eq]; rfl

theorem State.writeFields_byteAt_outside {o e : Nat} {fs : List FieldWrite} (h : Chain o fs e)
    (s : State) {k : Nat} (hk : k < o ∨ e ≤ k) :
    (s.writeFields fs).byteAt .obuf k = s.byteAt .obuf k := by
  induction fs generalizing s o with
  | nil => rfl
  | cons f fs ih =>
    obtain ⟨rfl, h⟩ := h
    have := h.le
    rw [State.writeFields_cons, ih h _ (by omega), State.byteAt_bufWrite, if_neg (by omega)]

theorem State.writeFields_bufRead_outside {o e : Nat} {fs : List FieldWrite} (h : Chain o fs e)
    (s : State) {off n : Nat} (hk : off + n ≤ o ∨ e ≤ off) :
    (s.writeFields fs).bufRead .obuf off n = s.bufRead .obuf off n :=
  State.bufRead_congr fun _ _ => State.writeFields_byteAt_outside h s (by omega)

/-- Every field of a message reads back as the number that was written. -/
theorem State.writeFields_bufRead {o e : Nat} {fs : List FieldWrite} (h : Chain o fs e) (s : State)
    {f : FieldWrite} (hf : f ∈ fs) (hv : f.v < 256 ^ f.n) :
    (s.writeFields fs).bufRead .obuf f.off f.n = f.v := by
  induction fs generalizing s o with
  | nil => simp at hf
  | cons g fs ih =>
    obtain ⟨rfl, h⟩ := h
    rw [State.writeFields_cons]
    rcases List.mem_cons.1 hf with rfl | hf
    · rw [State.writeFields_bufRead_outside h _ (.inl (Nat.le_refl _)), State.bufRead_bufWrite,
        Nat.mod_eq_of_lt hv]
    · exact ih h _ hf

/-- The bytes of a message depend on its fields alone. -/
theorem State.writeFields_byteAt_inside {o e : Nat} {fs : List FieldWrite} (h : Chain o fs e)
    (s s' : State) {k : Nat} (hk : o ≤ k ∧ k < e) :
    (s.writeFields fs).byteAt .obuf k = (s'.writeFields fs).byteAt .obuf k := by
  induction fs generalizing s s' o with
  | nil => simp only [Chain] at h; omega
  | cons f fs ih =>
    obtain ⟨rfl, h⟩ := h
    simp only [State.writeFields_cons]
    by_cases hc : f.off + f.n ≤ k
    · exact ih h _ _ ⟨hc, hk.2⟩
    · rw [State.writeFields_byteAt_outside h _ (by omega),
        State.writeFields_byteAt_outside h _ (by omega), State.byteAt_bufWrite,
        State.byteAt_bufWrite, if_pos ⟨rfl, by omega, by omega⟩,
        if_pos ⟨rfl, by omega, by omega⟩]

/-- A message that ends within the buffer keeps its canonical form. -/
theorem State.writeFields_wf {o e : Nat} {fs : List FieldWrite} (h : Chain o fs e) (s : State)
    (he : e ≤ Config.bufSize) (hw : Memory.wf s.obuf) : Memory.wf (s.writeFields fs).obuf := by
  induction fs generalizing s o with
  | nil => exact hw
  | cons f fs ih =>
    obtain ⟨rfl, h⟩ := h
    have := h.le
    rw [State.writeFields_cons]
    refine ih h _ (Memory.wf_cellsSet (m := s.obuf) _ hw ?_)
    rw [beBytes_length]; omega

/-! ### Parsed fields -/

theorem State.ibufField_toNat (s : State) {off n w : Nat} (h : 8 * n = w) :
    (s.ibufField off n w).toNat = s.bufRead .ibuf off n := by
  subst h
  have := s.bufRead_lt .ibuf off n
  rw [State.ibufField, BitVec.toNat_ofNat, Nat.mod_eq_of_lt]
  rwa [Nat.pow_mul]

theorem State.ibufField_congr {s s' : State} {off n w : Nat}
    (h : ∀ k, off ≤ k → k < off + n → s.byteAt .ibuf k = s'.byteAt .ibuf k) :
    s.ibufField off n w = s'.ibufField off n w := by
  rw [State.ibufField, State.ibufField,
    State.bufRead_congr (s := s) (s' := s') fun k hk => h (off + k) (by omega) (by omega)]

/-- A field parsed from bytes equal to a framed message is the number the message holds there. -/
theorem State.ibufField_received {t u : State} {off n w len : Nat}
    (h : ∀ k, k < len → u.byteAt .ibuf k = t.byteAt .obuf k) (hl : off + n ≤ len) :
    u.ibufField off n w = BitVec.ofNat w (t.bufRead .obuf off n) := by
  rw [State.ibufField,
    State.bufRead_congr (s := u) (s' := t) fun k hk => h (off + k) (by omega)]

end Sys2Proof.Machine
end

