-- ==== Sys2Proof/Laws/Encoding.lean ====
section
/-! SUPPORT. A word is the concatenation of its fields (30_encoding.md R49), and what the decoder's answer
says of them. -/

namespace Sys2Proof

/-- A word from its six fields. -/
theorem word_eq_fields (v : Word) :
    v = resOf v ++ selOf v ++ rs2Of v ++ rs1Of v ++ rdOf v ++ opcOf v := by
  apply BitVec.eq_of_getLsbD_eq
  intro i hi
  have hi' : i < 32 := hi
  simp only [resOf, selOf, rs2Of, rs1Of, rdOf, opcOf, BitVec.getLsbD_append,
    BitVec.getLsbD_extractLsb']
  interval_cases i <;> simp

theorem wordOf_fields (v : Word) (h : resOf v = 0) :
    wordOf (opcOf v) (rdOf v) (rs1Of v) (rs2Of v) (selOf v) = v := by
  conv => rhs; rw [word_eq_fields v, h]
  rfl

@[simp] theorem tField_tReg (f : BitVec 3) : tField (tReg f) = f := rfl

@[simp] theorem WireSrc.sel_ofSel (b : BitVec 1) : (WireSrc.ofSel b).sel = b := by
  revert b; decide
@[simp] theorem SnSrc.sel_ofSel (b : BitVec 1) : (SnSrc.ofSel b).sel = b := by revert b; decide
@[simp] theorem SnDst.sel_ofSel (b : BitVec 1) : (SnDst.ofSel b).sel = b := by revert b; decide

/-- What an accepting decoder has seen. -/
theorem decode_command {v : Word} {i : Instr} (h : decode v = .command i) :
    ∃ f, opcodeMap v = some (f, i) ∧ resOf v = 0 ∧ f.unusedAreZero v = true := by
  unfold decode at h
  split at h
  · cases h
  · rename_i f j hm
    split at h
    · rename_i hc
      cases h
      simp only [Bool.and_eq_true, beq_iff_eq] at hc
      exact ⟨f, hm, hc⟩
    · cases h

/-- A word that decodes to a command is that command's encoding: no second word does. -/
theorem encode_of_decode {v : Word} {i : Instr} (h : decode v = .command i) : encode i = v := by
  obtain ⟨f, hm, hr, hu⟩ := decode_command h
  have hw := wordOf_fields v hr
  unfold opcodeMap at hm
  split at hm
  all_goals first
    | (cases hm; done)
    | (rename_i ho
       simp only [Option.some.injEq, Prod.mk.injEq] at hm
       obtain ⟨rfl, rfl⟩ := hm
       simp only [Format.unusedAreZero, Bool.and_eq_true, beq_iff_eq] at hu
       simp only [encode, tField_tReg, WireSrc.sel_ofSel, SnSrc.sel_ofSel, SnDst.sel_ofSel]
       refine Eq.trans ?_ hw
       have ho' := congrArg (BitVec.ofNat 8) ho
       rw [BitVec.ofNat_toNat, BitVec.setWidth_eq] at ho'
       simp [hu, ho'])

end Sys2Proof
end

