-- ==== Sys2Proof/Laws/Exec.lean ====
section
/-! SUPPORT. What the meanings do, one lemma per meaning or shape: every command answers a next state; the
cases of the conversions; the chains of the nine messages; what no command changes. -/

namespace Sys2Proof.Machine

/-- Every command answers a next state (60_exceptions.md R109). -/
theorem exec_next (i : Instr) (s : State) : ∃ t, exec i s = .next t := by
  cases i <;> exact ⟨_, rfl⟩

/-! ### HALVE and FLOG2 (40_time_arith.md R76, R77) -/

theorem execHalve_eq (rd rs1 : TReg) (s : State) :
    execHalve rd rs1 s = .next (s.beginCommand.setT rd
      (.ofInts (canon (halfTotal (s.getT rs1))).1 (canon (halfTotal (s.getT rs1))).2)) := rfl

/-- HALVE's total is within half a nanosecond of half the source's total. -/
theorem halfTotal_near (x : InternalTime) : (2 * halfTotal x - x.total).natAbs ≤ 1 := by
  have e : ∀ a : Int, a.tmod 2 = a - a.tdiv 2 * 2 := fun a => by
    have := Int.mul_tdiv_add_tmod a 2; omega
  simp only [halfTotal, Config.nsPerS, InternalTime.total]
  have h1 := tmod_bounds x.sec.toInt (m := 2) (by omega)
  rw [e]
  have h2 := tmod_bounds
    (x.ns.toInt + (x.sec.toInt - x.sec.toInt.tdiv 2 * 2) * 1000000000) (m := 2) (by omega)
  omega

/-- HALVE's seconds always fit int32, so it never overflows. -/
theorem halfTotal_fits (x : InternalTime) :
    -2 ^ 31 ≤ (canon (halfTotal x)).1 ∧ (canon (halfTotal x)).1 ≤ 2 ^ 31 - 1 := by
  have hb := toInt32_bounds x.sec
  have hb' := toInt32_bounds x.ns
  have h1 := halfTotal_near x
  have h2 := tmod_bounds (halfTotal x) (m := 1000000000) (by omega)
  rw [InternalTime.total, Config.nsPerS] at h1
  simp only [canon, Config.nsPerS]
  omega

theorem highestSet_eq_some {u : Word} {n k : Nat} (hk : k ≤ n) (h : u.getLsbD k = true)
    (ha : ∀ j, k < j → u.getLsbD j = false) : highestSet u n = some k := by
  induction n with
  | zero =>
    obtain rfl : k = 0 := by omega
    simp only [highestSet, h, if_true]
  | succ n ih =>
    simp only [highestSet]
    by_cases e : k = n + 1
    · subst e; simp [h]
    · rw [ha _ (by omega)]; simpa using ih (by omega)

/-! ### The conversions (41_conversion.md R81 to R84) -/

/-- SN2INT's result on integers: the magnitude shifted and split, the sign on both halves. -/
theorem snToInternal_toInt (x : BitVec 64) :
    (0 ≤ x.toInt → (snToInternal x).sec.toInt = x.toInt / 2 ^ 16 / 1000000000 ∧
      (snToInternal x).ns.toInt = x.toInt / 2 ^ 16 % 1000000000) ∧
    (x.toInt < 0 → (snToInternal x).sec.toInt = -(-x.toInt / 2 ^ 16 / 1000000000) ∧
      (snToInternal x).ns.toInt = -(-x.toInt / 2 ^ 16 % 1000000000)) := by
  have hb := toInt64_bounds x
  have key : ∀ m : Nat,
      ((m >>> Config.snFrac : Nat) : Int).tdiv Config.nsPerS = (m : Int) / 2 ^ 16 / 1000000000 ∧
      ((m >>> Config.snFrac : Nat) : Int) - ((m : Int) / 2 ^ 16 / 1000000000) * Config.nsPerS =
        (m : Int) / 2 ^ 16 % 1000000000 := by
    intro m
    have e : ((m >>> Config.snFrac : Nat) : Int) = (m : Int) / 2 ^ 16 := by
      rw [Nat.shiftRight_eq_div_pow]; rfl
    rw [e, Config.nsPerS, Int.tdiv_eq_ediv_of_nonneg (by omega)]
    exact ⟨rfl, by omega⟩
  have k := key x.toInt.natAbs
  refine ⟨fun h => ?_, fun h => ?_⟩ <;> simp only [snToInternal]
  · rw [if_neg (by omega), k.1, k.2, show (x.toInt.natAbs : Int) = x.toInt by omega,
      InternalTime.ofInts]
    constructor <;> apply toInt_ofInt32 <;> omega
  · rw [if_pos (by omega), k.1, k.2, show (x.toInt.natAbs : Int) = -x.toInt by omega,
      InternalTime.ofInts]
    constructor <;> apply toInt_ofInt32 <;> omega

/-- SN2INT gives the canonical pair of the value without its 16 fractional bits, cut toward zero. -/
theorem snToInternal_canon (x : BitVec 64) :
    canon (x.toInt.tdiv (2 ^ 16)) = ((snToInternal x).sec.toInt, (snToInternal x).ns.toInt) := by
  have h := snToInternal_toInt x
  have hb := toInt64_bounds x
  rcases Int.lt_or_le x.toInt 0 with hx | hx
  · have e : x.toInt.tdiv (2 ^ 16) = -(-x.toInt / 2 ^ 16) := by
      rw [← Int.neg_neg x.toInt, Int.neg_tdiv, Int.tdiv_eq_ediv_of_nonneg (by omega)]; simp
    apply canon_eq_of_normalized <;> rw [(h.2 hx).1, (h.2 hx).2]
    · apply Normalized.of_signs <;> omega
    · rw [e]; omega
  · apply canon_eq_of_normalized <;> rw [(h.1 hx).1, (h.1 hx).2]
    · apply Normalized.of_signs <;> omega
    · rw [Int.tdiv_eq_ediv_of_nonneg hx]; omega

theorem execInt2sn_in {s : State} {a : TReg}
    (h : -2 ^ 47 ≤ (s.getT a).total ∧ (s.getT a).total ≤ 2 ^ 47 - 1) (d : SnDst) :
    execInt2sn a d s =
      .next (s.beginCommand.setSnDest d (BitVec.ofInt 64 ((s.getT a).total * 2 ^ 16))) :=
  congrArg Host.Outcome.next (if_pos ((fitsInt64_iff _).2 (by
    show -2 ^ 63 ≤ (s.getT a).total * 2 ^ 16 ∧ (s.getT a).total * 2 ^ 16 ≤ 2 ^ 63 - 1; omega)))

theorem execInt2sn_out {s : State} {a : TReg}
    (h : ¬ (-2 ^ 47 ≤ (s.getT a).total ∧ (s.getT a).total ≤ 2 ^ 47 - 1)) (d : SnDst) :
    execInt2sn a d s = .next (s.beginCommand.raiseFail 6) :=
  congrArg Host.Outcome.next (if_neg fun hc => by
    have : -2 ^ 63 ≤ (s.getT a).total * 2 ^ 16 ∧ (s.getT a).total * 2 ^ 16 ≤ 2 ^ 63 - 1 :=
      (fitsInt64_iff _).1 hc
    omega)

theorem execInt2wire_in {s : State} {a : TReg}
    (h : 0 ≤ (s.getT a).sec.toInt ∧ 0 ≤ (s.getT a).ns.toInt) :
    execInt2wire a s =
      .next { s.beginCommand with w := ⟨(s.getT a).sec.setWidth 48, (s.getT a).ns⟩ } :=
  congrArg Host.Outcome.next (if_pos (decide_eq_true h))

theorem execInt2wire_out {s : State} {a : TReg}
    (h : ¬ (0 ≤ (s.getT a).sec.toInt ∧ 0 ≤ (s.getT a).ns.toInt)) :
    execInt2wire a s = .next (s.beginCommand.raiseFail 3) :=
  congrArg Host.Outcome.next (if_neg fun hc => h (of_decide_eq_true hc))

theorem execWire2int_in {s : State} {x : WireSrc} (h : (s.wireSource x).sec.toNat ≤ 2 ^ 31 - 1)
    (d : TReg) : execWire2int d x s =
      .next (s.beginCommand.setT d ⟨(s.wireSource x).sec.setWidth 32, (s.wireSource x).ns⟩) :=
  congrArg Host.Outcome.next (if_pos (decide_eq_true h))

theorem execWire2int_out {s : State} {x : WireSrc} (h : ¬ (s.wireSource x).sec.toNat ≤ 2 ^ 31 - 1)
    (d : TReg) : execWire2int d x s = .next (s.beginCommand.raiseFail 4) :=
  congrArg Host.Outcome.next (if_neg fun hc => h (of_decide_eq_true hc))

theorem toNat_of_nonneg {x : BitVec 32} (h : 0 ≤ x.toInt) : (x.toNat : Int) = x.toInt := by
  have := x.isLt
  rw [BitVec.toInt_eq_toNat_cond] at *
  split at h
  · simp [*]
  · omega

theorem toInt_setWidth32 {x : BitVec 48} (h : x.toNat ≤ 2 ^ 31 - 1) :
    (x.setWidth 32).toInt = x.toNat := by
  rw [BitVec.toInt_eq_toNat_of_lt] <;> simp [BitVec.toNat_setWidth] <;> omega

/-! ### The messages: the fields of each fill it without gaps (42_framer_pack.md R87 to R95) -/

theorem Chain.append {o m e : Nat} {fs gs : List FieldWrite} (h : Chain o fs m) (h' : Chain m gs e) :
    Chain o (fs ++ gs) e := by
  induction fs generalizing o with
  | nil => obtain rfl : o = m := h; exact h'
  | cons f fs ih => exact ⟨h.1, ih h.2⟩

theorem packHeader_chain (c : Ctx) (type len ctrl : Nat) : Chain 0 (packHeader c type len ctrl) 34 := by
  simp [packHeader, Chain]

theorem packTs_chain (o : Nat) (w : WireTimestamp) : Chain o (packTs o w) (o + 10) := by
  simp [packTs, Chain]

theorem packPortId_chain (o : Nat) (k : BitVec 64) (p : BitVec 16) :
    Chain o (packPortId o k p) (o + 10) := by
  simp [packPortId, Chain]

theorem packAnnounceBody_chain (x : Tx) : Chain 44 (packAnnounceBody x) 64 := by
  simp [packAnnounceBody, Chain]

theorem packManagementBody_chain (x : Tx) : Chain 44 (packManagementBody x) 48 := by
  simp [packManagementBody, Chain]

/-- The header and the timestamp, with which eight of the nine messages begin. -/
theorem packTimestamped_chain (c : Ctx) (type len ctrl : Nat) (w : WireTimestamp) :
    Chain 0 (packHeader c type len ctrl ++ packTs 34 w) 44 :=
  (packHeader_chain ..).append (packTs_chain ..)

/-- A message with fields that chain from 0 to `len`, as each PACK command leaves it: the frame. -/
theorem writeFields_message {fs : List FieldWrite} {len : Nat} (h : Chain 0 fs len) (s : State) :
    (∀ off, len ≤ off → (s.writeFields fs).byteAt .obuf off = s.byteAt .obuf off) ∧
    (∀ off, (s.writeFields fs).byteAt .ibuf off = s.byteAt .ibuf off) ∧
    ∀ f ∈ fs, f.v < 256 ^ f.n → (s.writeFields fs).bufRead .obuf f.off f.n = f.v :=
  ⟨fun _ ho => State.writeFields_byteAt_outside h _ (.inr ho),
    State.writeFields_byteAt_ibuf _ _, fun _ hf hv => State.writeFields_bufRead h _ hf hv⟩

/-! ### What no command changes -/

/-- No command writes IBUF, `U_IN`, `TX` or CMD, none starts a reset and none touches the host's side. -/
theorem exec_keeps {i : Instr} {s t : State} (h : exec i s = .next t) :
    t.ibuf = s.ibuf ∧ t.uIn = s.uIn ∧ t.tx = s.tx ∧ t.cmd = s.cmd ∧ t.resets = s.resets ∧
      t.pending = s.pending ∧ t.response = s.response := by
  obtain ⟨u, hu, hk⟩ : ∃ u, exec i s = .next u ∧ u.ibuf = s.ibuf ∧ u.uIn = s.uIn ∧ u.tx = s.tx ∧
      u.cmd = s.cmd ∧ u.resets = s.resets ∧ u.pending = s.pending ∧ u.response = s.response := by
    cases i with
    | norm d a => exact ⟨_, rfl, by rw [State.writeNormalized_frame]; simp⟩
    | add d a b => exact ⟨_, rfl, by rw [State.writeNormalized_frame]; simp⟩
    | sub d a b => exact ⟨_, rfl, by rw [State.writeNormalized_frame]; simp⟩
    | int2wire a => exact ⟨_, rfl, by split <;> simp⟩
    | wire2int d x => exact ⟨_, rfl, by split <;> simp⟩
    | int2sn a x => exact ⟨_, rfl, by split <;> cases x <;> simp [State.setSnDest]⟩
    | packSync | packDelayReq | packPdelayReq | packPdelayResp | packFollowUp | packDelayResp
    | packPdelayRespFu | packAnnounce | packManagement =>
      exact ⟨_, rfl, by rw [State.writeFields_eq]; simp⟩
    | _ => exact ⟨_, rfl, by simp⟩
  rw [hu] at h
  cases h
  exact hk

/-- What a command can leave in STATUS (60_exceptions.md R111 to R114). -/
theorem exec_status {i : Instr} {s t : State} (h : exec i s = .next t) :
    t.status = s.status.beginCommand ∨ t.status = s.status.beginCommand.failed 3 ∨
      t.status = s.status.beginCommand.failed 4 ∨ t.status = s.status.beginCommand.failed 6 ∨
      t.status = s.status.beginCommand.overflowed 5 := by
  obtain ⟨u, hu, hk⟩ : ∃ u, exec i s = .next u ∧ (u.status = s.status.beginCommand ∨
      u.status = s.status.beginCommand.failed 3 ∨ u.status = s.status.beginCommand.failed 4 ∨
      u.status = s.status.beginCommand.failed 6 ∨ u.status = s.status.beginCommand.overflowed 5) := by
    cases i with
    | norm d a => exact ⟨_, rfl, by rw [State.writeNormalized_status]; split <;> simp⟩
    | add d a b => exact ⟨_, rfl, by rw [State.writeNormalized_status]; split <;> simp⟩
    | sub d a b => exact ⟨_, rfl, by rw [State.writeNormalized_status]; split <;> simp⟩
    | int2wire a => exact ⟨_, rfl, by split <;> simp [causeNegative]⟩
    | wire2int d x => exact ⟨_, rfl, by split <;> simp [causeWireRange]⟩
    | int2sn a x =>
      exact ⟨_, rfl, by split <;> cases x <;> simp [State.setSnDest, causeScaled]⟩
    | packSync | packDelayReq | packPdelayReq | packPdelayResp | packFollowUp | packDelayResp
    | packPdelayRespFu | packAnnounce | packManagement =>
      exact ⟨_, rfl, .inl (by rw [State.writeFields_eq]; rfl)⟩
    | _ => exact ⟨_, rfl, .inl rfl⟩
  rw [hu] at h
  cases h
  exact hk

/-- A command leaves the canonical form of OBUF as it was; IBUF it does not write at all. -/
theorem exec_wf {i : Instr} {s t : State} (h : exec i s = .next t) (hw : Memory.wf s.obuf) :
    Memory.wf t.obuf := by
  obtain ⟨u, hu, hk⟩ : ∃ u, exec i s = .next u ∧ Memory.wf u.obuf := by
    have hts := packTimestamped_chain
    cases i with
    | norm d a => exact ⟨_, rfl, by rw [State.writeNormalized_frame]; exact hw⟩
    | add d a b => exact ⟨_, rfl, by rw [State.writeNormalized_frame]; exact hw⟩
    | sub d a b => exact ⟨_, rfl, by rw [State.writeNormalized_frame]; exact hw⟩
    | int2wire a => exact ⟨_, rfl, by split <;> exact hw⟩
    | wire2int d x => exact ⟨_, rfl, by split <;> exact hw⟩
    | int2sn a x => exact ⟨_, rfl, by split <;> cases x <;> exact hw⟩
    | packSync | packFollowUp | packDelayReq =>
      exact ⟨_, rfl, State.writeFields_wf (hts ..) _ (by decide) hw⟩
    | packPdelayReq =>
      exact ⟨_, rfl, State.writeFields_wf ((hts ..).append (show Chain 44 [⟨44, 10, 0⟩] 54 from ⟨rfl, rfl⟩)) _ (by decide) hw⟩
    | packPdelayResp | packDelayResp | packPdelayRespFu =>
      exact ⟨_, rfl, State.writeFields_wf ((hts ..).append (packPortId_chain ..)) _ (by decide) hw⟩
    | packAnnounce =>
      exact ⟨_, rfl, State.writeFields_wf ((hts ..).append (packAnnounceBody_chain _)) _
        (by decide) hw⟩
    | packManagement =>
      exact ⟨_, rfl, State.writeFields_wf (((packHeader_chain ..).append
        (packPortId_chain ..)).append (packManagementBody_chain _)) _ (by decide) hw⟩
    | _ => exact ⟨_, rfl, hw⟩
  rw [hu] at h
  cases h
  exact hk

end Sys2Proof.Machine
end

