-- ==== Sys2Proof/Laws/Bus.lean ====
section
/-! SUPPORT. What a step can do, said once: the cases of one interaction of the host, of a command word, of a
register write, and the lanes of a buffer access. Later proofs cite these and never unfold the bus. -/

namespace Sys2Proof.Machine

/-! ### The register map (10_state.md R28) -/

/-- CMD stands at offset 0 and nowhere else. -/
theorem regAt_cmd : ∀ a : BitVec 10, regAt a.toNat = some .cmd → a = 0 := by decide +kernel

/-- What a host write of a register word leaves as it was (10_state.md R25, R26, R20; 20_memory.md R35). -/
theorem regWrite_keeps (r : RegWord) (v : Word) (s : State) :
    (regWrite r v s).obuf = s.obuf ∧ (regWrite r v s).ibuf = s.ibuf ∧
      (regWrite r v s).resets = s.resets ∧ (regWrite r v s).pending = s.pending ∧
      (regWrite r v s).response = s.response ∧ (regWrite r v s).rxh = s.rxh ∧
      (regWrite r v s).rx = s.rx ∧ (regWrite r v s).lOut = s.lOut := by
  cases r <;> exact ⟨rfl, rfl, rfl, rfl, rfl, rfl, rfl, rfl⟩

/-- Only the write of STATUS itself touches STATUS. -/
theorem regWrite_status {r : RegWord} (h : r ≠ .status) (v : Word) (s : State) :
    (regWrite r v s).status = s.status := by
  cases r <;> first | rfl | exact absurd rfl h

/-- The concatenation of two words as numbers. -/
theorem toNat_append {m n : Nat} (x : BitVec m) (y : BitVec n) :
    (x ++ y).toNat = x.toNat * 2 ^ n + y.toNat := by
  rw [BitVec.toNat_append, ← Nat.shiftLeft_add_eq_or_of_lt y.isLt, Nat.shiftLeft_eq]

/-! ### A command word (30_encoding.md R50) -/

theorem performCommand_cases {v : Word} {s t : State} (h : performCommand v s = .next t) :
    (∃ i, decode v = .command i ∧ exec i { s with cmd := v } = .next t) ∨
    ∃ why, decode v = .illegal why ∧
      t = ({ s with cmd := v } : State).beginCommand.raiseIllegal (illegalCause why) := by
  unfold performCommand at h
  split at h
  · exact .inl ⟨_, ‹_›, h⟩
  · cases h; exact .inr ⟨_, ‹_›, rfl⟩

theorem performCommand_command {v : Word} {i : Instr} (h : decode v = .command i) (s : State) :
    performCommand v s = exec i { s with cmd := v } := by
  simp only [performCommand, h]; rfl

theorem performCommand_illegal {v : Word} {why : IllegalWord} (h : decode v = .illegal why) (s : State) :
    performCommand v s =
      .next (({ s with cmd := v } : State).beginCommand.raiseIllegal (illegalCause why)) := by
  simp only [performCommand, h]; rfl

/-- Every command word is performed to its end; CMD holds it and the host's side is as before. -/
theorem performCommand_next (v : Word) (s : State) :
    ∃ t, performCommand v s = .next t ∧ t.cmd = v ∧ t.pending = s.pending ∧
      t.response = s.response ∧ t.resets = s.resets := by
  cases hd : decode v with
  | command i =>
    obtain ⟨t, ht⟩ := exec_next i { s with cmd := v }
    obtain ⟨-, -, -, hc, hr, hp, ha⟩ := exec_keeps ht
    exact ⟨t, (performCommand_command hd s).trans ht, hc, hp, ha, hr⟩
  | illegal why => exact ⟨_, performCommand_illegal hd s, rfl, rfl, rfl, rfl⟩

/-! ### One interaction -/

/-- Everything an interaction of the host can do (20_memory.md R32 to R38, 70_reset_and_hazards.md R125). -/
theorem hostEvent_cases {e : HostEvent} {s t : State} (h : hostEvent e s = .next t) :
    (e = .reset ∧ t = { State.reset with resets := s.resets + 1, pending := s.pending }) ∨
    (∃ a n, e = .read a n ∧ legalAccess a.toNat n = true ∧
      t = s.respond (.readData (readData a.toNat n s))) ∨
    (∃ a n, e = .read a n ∧ legalAccess a.toNat n = false ∧ t = s.busError.respond (.readError 0)) ∨
    (∃ a n v, e = .write a n v ∧ legalAccess a.toNat n = false ∧
      t = s.busError.respond .writeError) ∨
    (∃ v, e = .write 0x000 .b4 v ∧ performCommand v (s.respond .written) = .next t) ∨
    (∃ a v r, e = .write a .b4 v ∧ a.toNat < 0x200 ∧ a.toNat % 4 = 0 ∧ regAt a.toNat = some r ∧
      r ≠ .cmd ∧ t = regWrite r v (s.respond .written)) ∨
    (∃ a v, e = .write a .b4 v ∧ a.toNat < 0x200 ∧ a.toNat % 4 = 0 ∧ regAt a.toNat = none ∧
      t = s.respond .written) ∨
    (∃ a n v, e = .write a n v ∧ 0x200 ≤ a.toNat ∧ a.toNat % n.bytes = 0 ∧
      t = (s.respond .written).laneWrite (windowOf a.toNat).1 (windowOf a.toNat).2 n.bytes v.toNat) := by
  cases e with
  | reset => cases h; exact .inl ⟨rfl, rfl⟩
  | read a n =>
    cases h
    by_cases hl : legalAccess a.toNat n = true
    · exact .inr (.inl ⟨a, n, rfl, hl, by rw [if_pos hl]⟩)
    · exact .inr (.inr (.inl ⟨a, n, rfl, by simpa using hl, by rw [if_neg hl]⟩))
  | write a n v =>
    simp only [hostEvent, hostWrite] at h
    split at h
    · rename_i hl
      unfold legalAccess at hl
      by_cases ha : a.toNat < 0x200
      · simp only [ha, if_true, decide_eq_true_eq] at h hl
        obtain ⟨rfl, h4⟩ := hl
        split at h
        · cases regAt_cmd a ‹_›
          exact .inr (.inr (.inr (.inr (.inl ⟨v, rfl, h⟩))))
        · rename_i r hne hr
          cases h
          exact .inr (.inr (.inr (.inr (.inr (.inl
            ⟨a, v, r, rfl, ha, h4, hr, fun hc => hne hc, rfl⟩)))))
        · cases h
          exact .inr (.inr (.inr (.inr (.inr (.inr (.inl ⟨a, v, rfl, ha, h4, ‹_›, rfl⟩))))))
      · simp only [ha, if_false, decide_eq_true_eq] at h hl
        cases h
        exact .inr (.inr (.inr (.inr (.inr (.inr (.inr ⟨a, n, v, rfl, by omega, hl, rfl⟩))))))
    · rename_i hl
      cases h
      exact .inr (.inr (.inr (.inl ⟨a, n, v, rfl, Bool.eq_false_iff.2 hl, rfl⟩)))

theorem laneWrite_pending (s : State) (b : BufId) (off n v : Nat) :
    (s.laneWrite b off n v).pending = s.pending := State.setBytes_pending ..

/-- Every interaction is answered, and uses up nothing but itself (70_reset_and_hazards.md R134). -/
theorem hostEvent_next (e : HostEvent) (s : State) :
    ∃ t, hostEvent e s = .next t ∧ t.pending = s.pending := by
  suffices hn : ∃ t, hostEvent e s = .next t by
    obtain ⟨t, ht⟩ := hn
    refine ⟨t, ht, ?_⟩
    rcases hostEvent_cases ht with ⟨-, rfl⟩ | ⟨_, _, -, -, rfl⟩ | ⟨_, _, -, -, rfl⟩ |
      ⟨_, _, _, -, -, rfl⟩ | ⟨v, -, h⟩ | ⟨_, v, r, -, -, -, -, -, rfl⟩ | ⟨_, _, -, -, -, -, rfl⟩ |
      ⟨_, _, _, -, -, -, rfl⟩
    · rfl
    · rfl
    · rfl
    · rfl
    · obtain ⟨u, hu, -, hp, -⟩ := performCommand_next v (s.respond .written)
      rw [hu] at h
      cases h
      exact hp
    · exact (regWrite_keeps r v _).2.2.2.1
    · rfl
    · exact laneWrite_pending ..
  cases e with
  | reset => exact ⟨_, rfl⟩
  | read a n => exact ⟨_, rfl⟩
  | write a n v =>
    simp only [hostEvent, hostWrite]
    split
    · split
      · split
        · obtain ⟨u, hu, -⟩ := performCommand_next v (s.respond .written)
          exact ⟨u, hu⟩
        · exact ⟨_, rfl⟩
        · exact ⟨_, rfl⟩
      · exact ⟨_, rfl⟩
    · exact ⟨_, rfl⟩

/-! ### A step -/

theorem step_cons (s : State) (e : HostEvent) (rest : List HostEvent) :
    step { s with pending := e :: rest } = hostEvent e { s with pending := rest } := rfl

theorem step_of_pending {s : State} {e : HostEvent} {rest : List HostEvent}
    (h : s.pending = e :: rest) : step s = hostEvent e { s with pending := rest } := by
  simp only [step, h]

theorem step_idle {s : State} (h : s.pending = []) : step s = .next s := by
  simp only [step, h]

theorem step_write_register {a : BitVec 10} {r : RegWord} (h1 : a.toNat < 0x200)
    (h2 : a.toNat % 4 = 0) (hr : regAt a.toNat = some r) (hn : r ≠ .cmd) (s : State)
    (rest : List HostEvent) (v : Word) :
    step { s with pending := .write a .b4 v :: rest } =
      .next (regWrite r v { s with pending := rest, response := some .written }) := by
  have hl : legalAccess a.toNat .b4 = true := by
    unfold legalAccess; rw [if_pos h1]; simpa using h2
  rw [step_cons]
  simp only [hostEvent, hostWrite, hl, h1, hr, if_true]
  rfl

theorem step_command (s : State) (rest : List HostEvent) (v : Word) :
    step { s with pending := .write 0x000 .b4 v :: rest } =
      performCommand v { s with pending := rest, response := some .written } := rfl

/-- A run goes on after each step that answers a next state. -/
theorem run_step {s s' : State} (h : step s = .next s') (n : Nat) :
    Host.Core.run Sys2Proof.core (n + 1) s = Host.Core.run Sys2Proof.core n s' := by
  have h' : Sys2Proof.core.step s = .next s' := h
  simp only [Host.Core.run, h']

/-! ### The lanes of a buffer access (20_memory.md R32) -/

theorem State.laneRead_congr {s s' : State} {b : BufId} {n : Nat} {off : Nat}
    (h : ∀ k < n, s.byteAt b (off + k) = s'.byteAt b (off + k)) :
    s.laneRead b off n = s'.laneRead b off n := by
  induction n generalizing off with
  | zero => rfl
  | succ n ih =>
    have h0 := h 0 (by omega)
    rw [State.laneRead, State.laneRead, ih fun k hk => ?_]
    · rw [Nat.add_zero] at h0; rw [h0]
    · rw [show off + 1 + k = off + (k + 1) by omega]; exact h _ (by omega)

theorem State.laneRead_lt (s : State) (b : BufId) (n off : Nat) : s.laneRead b off n < 256 ^ n := by
  induction n generalizing off with
  | zero => simp [State.laneRead]
  | succ n ih =>
    have := (s.byteAt b off).isLt
    have := ih (off + 1)
    rw [State.laneRead, Nat.pow_succ]
    omega

/-- Byte `j` of a lane read is the byte at `off + j`. -/
theorem State.laneRead_byte (s : State) (b : BufId) {n j : Nat} (h : j < n) (off : Nat) :
    s.laneRead b off n / 256 ^ j % 256 = (s.byteAt b (off + j)).toNat := by
  induction n generalizing off j with
  | zero => omega
  | succ n ih =>
    have hb := (s.byteAt b off).isLt
    rw [State.laneRead]
    cases j with
    | zero => simp only [Nat.pow_zero, Nat.div_one, Nat.add_zero]; omega
    | succ j =>
      rw [Nat.pow_succ, Nat.mul_comm (256 ^ j) 256, ← Nat.div_div_eq_div_mul,
        show ((s.byteAt b off).toNat + 256 * s.laneRead b (off + 1) n) / 256 =
          s.laneRead b (off + 1) n by omega, ih (by omega)]
      congr 2
      omega

/-- A window access keeps the canonical form (20_memory.md R44): it ends within the buffer. -/
theorem laneWrite_wf {s : State} {b : BufId} {off n : Nat} (v : Nat) (h : off + n ≤ Config.bufSize)
    (hw : Memory.wf s.obuf ∧ Memory.wf s.ibuf) :
    Memory.wf (s.laneWrite b off n v).obuf ∧ Memory.wf (s.laneWrite b off n v).ibuf := by
  have hl : off + (leBytes n v).length ≤ Config.bufSize := by rwa [leBytes_length]
  cases b
  · exact ⟨Memory.wf_cellsSet _ hw.1 hl, hw.2⟩
  · exact ⟨hw.1, Memory.wf_cellsSet _ hw.2 hl⟩

/-- A naturally aligned window access ends within its buffer. -/
theorem windowOf_fits {a : Nat} {n : AccessSize} (h1 : 0x200 ≤ a) (h2 : a < 0x400)
    (h3 : a % n.bytes = 0) : (windowOf a).2 + n.bytes ≤ Config.bufSize := by
  unfold windowOf Config.bufSize
  cases n <;> simp only [AccessSize.bytes] at * <;> split <;> simp only <;> omega

end Sys2Proof.Machine
end

