-- ==== Sys2Proof/Laws/PerInstr.lean ====
section
/-! SUPPORT. What holds of every command as syntax, said constructor by constructor: its word passes the three
checks, matches a row of the opcode table, and decodes to the command again. -/

namespace Sys2Proof.Laws.EncodesOneTableRow

/-- The encoder's word of a command is well formed and matches a row of the opcode table (30_encoding.md
R51, R53), and the decoder reads the command's own opcode from it. -/
def Statement (i : Instr) : Prop :=
  wellFormed (encode i) = true ∧ matchesRow (encode i) = true ∧
    (opcodeMap (encode i)).map Prod.snd = some i

theorem nop : Statement .nop := by unfold Statement; decide
theorem norm (rd : TReg) (rs1 : TReg) : Statement (.norm rd rs1) := by
  unfold Statement; revert rd rs1; decide +kernel
theorem add (rd : TReg) (rs1 : TReg) (rs2 : TReg) : Statement (.add rd rs1 rs2) := by
  unfold Statement; revert rd rs1 rs2; decide +kernel
theorem sub (rd : TReg) (rs1 : TReg) (rs2 : TReg) : Statement (.sub rd rs1 rs2) := by
  unfold Statement; revert rd rs1 rs2; decide +kernel
theorem halve (rd : TReg) (rs1 : TReg) : Statement (.halve rd rs1) := by
  unfold Statement; revert rd rs1; decide +kernel
theorem flog2 : Statement .flog2 := by unfold Statement; decide
theorem int2wire (rs1 : TReg) : Statement (.int2wire rs1) := by
  unfold Statement; revert rs1; decide
theorem wire2int (rd : TReg) (src : WireSrc) : Statement (.wire2int rd src) := by
  unfold Statement; cases src <;> (revert rd; decide)
theorem sn2int (rd : TReg) (src : SnSrc) : Statement (.sn2int rd src) := by
  unfold Statement; cases src <;> (revert rd; decide)
theorem int2sn (rs1 : TReg) (dst : SnDst) : Statement (.int2sn rs1 dst) := by
  unfold Statement; cases dst <;> (revert rs1; decide)
theorem packSync : Statement .packSync := by unfold Statement; decide
theorem packDelayReq : Statement .packDelayReq := by unfold Statement; decide
theorem packPdelayReq : Statement .packPdelayReq := by unfold Statement; decide
theorem packPdelayResp : Statement .packPdelayResp := by unfold Statement; decide
theorem packFollowUp : Statement .packFollowUp := by unfold Statement; decide
theorem packDelayResp : Statement .packDelayResp := by unfold Statement; decide
theorem packPdelayRespFu : Statement .packPdelayRespFu := by unfold Statement; decide
theorem packAnnounce : Statement .packAnnounce := by unfold Statement; decide
theorem packManagement : Statement .packManagement := by unfold Statement; decide
theorem unpackSync : Statement .unpackSync := by unfold Statement; decide
theorem unpackDelayReq : Statement .unpackDelayReq := by unfold Statement; decide
theorem unpackPdelayReq : Statement .unpackPdelayReq := by unfold Statement; decide
theorem unpackPdelayResp : Statement .unpackPdelayResp := by unfold Statement; decide
theorem unpackFollowUp : Statement .unpackFollowUp := by unfold Statement; decide
theorem unpackDelayResp : Statement .unpackDelayResp := by unfold Statement; decide
theorem unpackPdelayRespFu : Statement .unpackPdelayRespFu := by unfold Statement; decide
theorem unpackAnnounce : Statement .unpackAnnounce := by unfold Statement; decide
theorem unpackManagement : Statement .unpackManagement := by unfold Statement; decide
theorem unpackHdr : Statement .unpackHdr := by unfold Statement; decide

end Sys2Proof.Laws.EncodesOneTableRow
end

