-- ==== Sys2Proof/Laws/Registers.lean ====
section
/-! SUPPORT. The register words (10_state.md R28): the halves of wide registers, and that the write of a word
leaves what every other word reads. -/

namespace Sys2Proof.Machine

theorem toNat_hiHalf (x : DWord) : (hiHalf x).toNat = x.toNat / 2 ^ 32 := by
  have := x.isLt
  simp only [hiHalf, BitVec.extractLsb'_toNat, Nat.shiftRight_eq_div_pow]
  omega

theorem toNat_loHalf (x : DWord) : (loHalf x).toNat = x.toNat % 2 ^ 32 := by
  simp [loHalf, BitVec.extractLsb'_toNat]

@[simp] theorem hiHalf_setHi (x : DWord) (v : Word) : hiHalf (setHi x v) = v := by
  apply BitVec.eq_of_toNat_eq
  have := (loHalf x).isLt
  rw [toNat_hiHalf, setHi, toNat_append]; omega
@[simp] theorem loHalf_setHi (x : DWord) (v : Word) : loHalf (setHi x v) = loHalf x := by
  apply BitVec.eq_of_toNat_eq
  have := (loHalf x).isLt
  rw [toNat_loHalf, setHi, toNat_append]; omega
@[simp] theorem loHalf_setLo (x : DWord) (v : Word) : loHalf (setLo x v) = v := by
  apply BitVec.eq_of_toNat_eq
  have := v.isLt
  rw [toNat_loHalf, setLo, toNat_append]; omega
@[simp] theorem hiHalf_setLo (x : DWord) (v : Word) : hiHalf (setLo x v) = hiHalf x := by
  apply BitVec.eq_of_toNat_eq
  have := v.isLt
  rw [toNat_hiHalf, setLo, toNat_append]; omega
theorem wSecHigh_setLow (x : BitVec 48) (v : Word) : (x.extractLsb' 32 16 ++ v).extractLsb' 32 16 = x.extractLsb' 32 16 := by
  apply BitVec.eq_of_toNat_eq
  have := v.isLt
  have := (x.extractLsb' 32 16).isLt
  rw [BitVec.extractLsb'_toNat, toNat_append, Nat.shiftRight_eq_div_pow]; omega
theorem wSecLow_setLow (x : BitVec 48) (v : Word) : (x.extractLsb' 32 16 ++ v).extractLsb' 0 32 = v := by
  apply BitVec.eq_of_toNat_eq
  have := v.isLt
  have := (x.extractLsb' 32 16).isLt
  rw [BitVec.extractLsb'_toNat, toNat_append, Nat.shiftRight_eq_div_pow]; omega
theorem wSecLow_setHigh (x : BitVec 48) (v : BitVec 16) : (v ++ x.extractLsb' 0 32).extractLsb' 0 32 = x.extractLsb' 0 32 := by
  apply BitVec.eq_of_toNat_eq
  have := v.isLt
  have := (x.extractLsb' 0 32).isLt
  rw [BitVec.extractLsb'_toNat, toNat_append, Nat.shiftRight_eq_div_pow]; omega
theorem wSecHigh_setHigh (x : BitVec 48) (v : BitVec 16) : (v ++ x.extractLsb' 0 32).extractLsb' 32 16 = v := by
  apply BitVec.eq_of_toNat_eq
  have := v.isLt
  have := (x.extractLsb' 0 32).isLt
  rw [BitVec.extractLsb'_toNat, toNat_append, Nat.shiftRight_eq_div_pow]; omega

theorem regRead_regWrite_t {r r' : RegWord}
    (hr : (∃ i, r = .tSec i) ∨ (∃ i, r = .tNs i)) (h : r' ≠ r) (v : Word) (s : State) :
    regRead r' (regWrite r v s) = regRead r' s := by
  rcases hr with ⟨i, rfl⟩ | ⟨i, rfl⟩
  · cases r' with
    | tSec j => simp only [regRead, regWrite]; rw [State.getT_setT_other _ _ (fun hc => h (by rw [hc]))]
    | tNs j => simp only [regRead, regWrite, State.getT_setT]; split <;> simp [*]
    | _ => rfl
  · cases r' with
    | tNs j => simp only [regRead, regWrite]; rw [State.getT_setT_other _ _ (fun hc => h (by rw [hc]))]
    | tSec j => simp only [regRead, regWrite, State.getT_setT]; split <;> simp [*]
    | _ => rfl
theorem regRead_regWrite_ctx {r r' : RegWord}
    (hr : r ∈ [RegWord.ctxCfg, .ctxFlags, .ctxSeq, .ctxPort, .ctxClkidHi, .ctxClkidLo, .ctxCorrLo,
      .ctxCorrHi]) (h : r' ≠ r) (v : Word) (s : State) :
    regRead r' (regWrite r v s) = regRead r' s := by
  simp only [List.mem_cons, List.not_mem_nil, or_false] at hr
  cases r'
  case ctxCfg | ctxFlags | ctxSeq | ctxPort | ctxClkidHi | ctxClkidLo | ctxCorrLo | ctxCorrHi =>
    rcases hr with rfl | rfl | rfl | rfl | rfl | rfl | rfl | rfl <;>
      first | contradiction | rfl | simp only [regRead, regWrite, hiHalf_setLo, loHalf_setHi]
  all_goals rcases hr with rfl | rfl | rfl | rfl | rfl | rfl | rfl | rfl <;> rfl
theorem regRead_regWrite_tx {r r' : RegWord}
    (hr : r ∈ [RegWord.txReqclkHi, .txReqclkLo, .txReqport, .txAnn0, .txAnn1, .txGmidHi, .txGmidLo,
      .txAnn2, .txTgtclkHi, .txTgtclkLo, .txMgmt0, .txMgmt1]) (h : r' ≠ r) (v : Word) (s : State) :
    regRead r' (regWrite r v s) = regRead r' s := by
  simp only [List.mem_cons, List.not_mem_nil, or_false] at hr
  cases r'
  case txReqclkHi | txReqclkLo | txReqport | txAnn0 | txAnn1 | txGmidHi | txGmidLo | txAnn2 | txTgtclkHi | txTgtclkLo | txMgmt0 | txMgmt1 =>
    rcases hr with rfl | rfl | rfl | rfl | rfl | rfl | rfl | rfl | rfl | rfl | rfl | rfl <;>
      first | contradiction | rfl | simp only [regRead, regWrite, hiHalf_setLo, loHalf_setHi]
  all_goals rcases hr with rfl | rfl | rfl | rfl | rfl | rfl | rfl | rfl | rfl | rfl | rfl | rfl <;> rfl
theorem regRead_regWrite_plain {r r' : RegWord}
    (hr : r ∈ [RegWord.cmd, .status, .uIn, .snLo, .snHi, .wSecLo, .wSecHi, .wNs]) (h : r' ≠ r) (v : Word) (s : State) :
    regRead r' (regWrite r v s) = regRead r' s := by
  simp only [List.mem_cons, List.not_mem_nil, or_false] at hr
  cases r'
  case cmd | status | uIn | snLo | snHi | wSecLo | wSecHi | wNs =>
    rcases hr with rfl | rfl | rfl | rfl | rfl | rfl | rfl | rfl <;>
      first | contradiction | rfl | simp only [regRead, regWrite, hiHalf_setLo, loHalf_setHi, wSecHigh_setLow, wSecLow_setHigh]
  all_goals rcases hr with rfl | rfl | rfl | rfl | rfl | rfl | rfl | rfl <;> rfl
theorem regRead_regWrite_other {r r' : RegWord} (h : r' ≠ r) (v : Word) (s : State) :
    regRead r' (regWrite r v s) = regRead r' s := by
  cases r
  case tSec i => exact regRead_regWrite_t (.inl ⟨i, rfl⟩) h v s
  case tNs i => exact regRead_regWrite_t (.inr ⟨i, rfl⟩) h v s
  case cmd | status | uIn | snLo | snHi | wSecLo | wSecHi | wNs => exact regRead_regWrite_plain (by simp) h v s
  case ctxCfg | ctxFlags | ctxSeq | ctxPort | ctxClkidHi | ctxClkidLo | ctxCorrLo | ctxCorrHi =>
    exact regRead_regWrite_ctx (by simp) h v s
  case txReqclkHi | txReqclkLo | txReqport | txAnn0 | txAnn1 | txGmidHi | txGmidLo | txAnn2 | txTgtclkHi | txTgtclkLo | txMgmt0 | txMgmt1 =>
    exact regRead_regWrite_tx (by simp) h v s
  all_goals rfl

/-! ### What a read gives -/

theorem readData_register {a : Nat} (h : a < 0x200) (n : AccessSize) (s : State) :
    readData a n s = match regAt a with | some r => regRead r s | none => 0 := by
  unfold readData
  exact if_pos h

/-- A read depends on the unit alone, not on the host's side. -/
theorem readData_congr (a : Nat) (n : AccessSize) (s : State) (p : List HostEvent)
    (r : Option BusResponse) :
    readData a n { s with pending := p, response := r } = readData a n s := by
  unfold readData
  split
  · split
    · rename_i r _
      cases r <;> rfl
    · rfl
  · refine congrArg _ (State.laneRead_congr fun _ _ => State.byteAt_congr ?_ rfl _)
    cases (windowOf a).1 <;> rfl

end Sys2Proof.Machine
end

