-- ==== Sys2Proof/Tests/Slice0.lean ====
section
/-! SUPPORT. The model's own tests: the well-formedness smoke, one word of every command written out from the
spec's encoding, small one-step checks with the values of 95_test_vectors.md, and a witness for the hypotheses
of every statement that has some. -/

namespace Sys2Proof.Tests

open Sys2Proof Sys2Proof.Machine Sys2Proof.Slice0

/-! ### Helpers -/

/-- The reset state with some InternalTime registers set. -/
def withT (l : List (TReg × Int × Int)) : State :=
  l.foldl (fun s p => s.setT p.1 (.ofInts p.2.1 p.2.2)) State.reset

/-- The state a command leaves. -/
def after (i : Instr) (s : State) : State :=
  match exec i s with
  | .next t => t
  | _ => s

/-- The state a step leaves. -/
def stepped (s : State) : State :=
  match step s with
  | .next t => t
  | _ => s

/-- The integers of a register and the STATUS word. -/
def result (i : TReg) (s : State) : Int × Int × Word := (secOf s i, nsOf s i, s.status.toWord)

/-- Context E of 42_framer_pack.md. -/
def contextE : State := { State.reset with
  ctx := { transport := 0, version := 2, domain := 0, logint := 0, flags := 0x0200, seq := 5, port := 1,
           clkid := 0x001122FFFE334455, corr := 0 }
  w := ⟨0x00006553F100, 0x075BCD15⟩
  tx := { reqclk := 0x0A0B0CFFFE0D0E0F, reqport := 2, utcoff := 37, pri1 := 128, cls := 248, acc := 0xFE,
          variance := 0xFFFF, pri2 := 128, gmid := 0x001122FFFE334455, steps := 0, tsrc := 0xA0,
          tgtclk := 0xFFFFFFFFFFFFFFFF, tgtport := 0xFFFF, sbh := 1, bh := 1, action := 0 } }

/-- The reset state with a message in IBUF. -/
def received (m : List Byte) : State := State.reset.setBytes .ibuf 0 m

/-- The first `n` bytes of OBUF. -/
def obufBytes (n : Nat) (s : State) : List Byte := (List.range n).map (s.byteAt .obuf)

/-- Message S of 43_framer_unpack.md. -/
def messageS : List Byte :=
  [0x10, 0x02, 0x00, 0x2C, 0x18, 0x00, 0x02, 0x08, 0x00, 0x00, 0x00, 0x00, 0x00, 0x02, 0x80, 0x00, 0x00, 0x00, 0x00, 0x00, 0xAA, 0xBB] ++
   [0xCC, 0xFF, 0xFE, 0xDD, 0xEE, 0xFF, 0x00, 0x01, 0x12, 0x34, 0x00, 0xFE, 0x00, 0x00, 0x65, 0x53, 0xF1, 0x01, 0x3B, 0x9A, 0xC9, 0xFF]

/-- Message D of 43_framer_unpack.md. -/
def messageD : List Byte :=
  [0x19, 0x02, 0x00, 0x36, 0x18, 0x00, 0x02, 0x08, 0xFF, 0xFF, 0xFF, 0xFF, 0xFF, 0xFF, 0x00, 0x00, 0x00, 0x00, 0x00, 0x00, 0xAA, 0xBB] ++
   [0xCC, 0xFF, 0xFE, 0xDD, 0xEE, 0xFF, 0x00, 0x01, 0x12, 0x34, 0x03, 0xFE, 0x00, 0x00, 0x65, 0x53, 0xF1, 0x02, 0x00, 0x00, 0x00, 0x05] ++
   [0x00, 0x11, 0x22, 0xFF, 0xFE, 0x33, 0x44, 0x55, 0x00, 0x01]

/-! ### Well-formedness smoke: an ill-formed word for each check, which that check and the whole refuse -/

theorem test_opcodeDefined_refuses :
    opcodeDefined 0x00000006 = false ∧ reservedZero 0x00000006 = true ∧ unusedZero 0x00000006 = true ∧
      wellFormed 0x00000006 = false := by decide
theorem test_reservedZero_refuses :
    opcodeDefined 0x00040001 = true ∧ reservedZero 0x00040001 = false ∧ unusedZero 0x00040001 = true ∧
      wellFormed 0x00040001 = false := by decide
theorem test_unusedZero_refuses_rs2 :
    opcodeDefined 0x00004001 = true ∧ reservedZero 0x00004001 = true ∧ unusedZero 0x00004001 = false ∧
      wellFormed 0x00004001 = false := by decide
theorem test_unusedZero_refuses_sel_rd :
    unusedZero 0x00020101 = false ∧ unusedZero 0x00000120 = false ∧ wellFormed 0x00020101 = false ∧
      wellFormed 0x00000120 = false := by decide
theorem test_wellFormed_accepts :
    wellFormed 0x00000901 = true ∧ wellFormed 0x00020109 = true ∧ wellFormed 0x0002000B = true := by decide
/-- The illegal words of 95_test_vectors.md 2.1; the opcode is tested first. -/
theorem test_illegal_words :
    decode 0x000000FF = .illegal .reservedOpcode ∧ decode 0x00040006 = .illegal .reservedOpcode ∧
      decode 0x0000000C = .illegal .reservedOpcode ∧ decode 0x0000002C = .illegal .reservedOpcode ∧
      decode 0x00020101 = .illegal .nonzeroField ∧ decode 0x00000120 = .illegal .nonzeroField := by decide

/-! ### Decoding: bits of the word as RES SEL RS2 RS1 RD OPC (30_encoding.md R49), opcodes of R53 -/

theorem test_decode_nop :
    decode (0b00000000000000000000000000000000 : Word) = .command .nop := by decide
theorem test_decode_norm :
    decode (0b00000000000000000001010100000001 : Word) = .command (.norm 5 2) := by decide
theorem test_decode_add :
    decode (0b00000000000000000110011100000010 : Word) = .command (.add 7 4 1) := by decide
theorem test_decode_sub :
    decode (0b00000000000000001111000100000011 : Word) = .command (.sub 1 6 3) := by decide
theorem test_decode_halve :
    decode (0b00000000000000000011101000000100 : Word) = .command (.halve 2 7) := by decide
theorem test_decode_flog2 :
    decode (0b00000000000000000000000000000101 : Word) = .command .flog2 := by decide
theorem test_decode_int2wire :
    decode (0b00000000000000000011000000001000 : Word) = .command (.int2wire 6) := by decide
theorem test_decode_wire2int :
    decode (0b00000000000000100000001100001001 : Word) = .command (.wire2int 3 .rxts) ∧
    decode (0b00000000000000000000010000001001 : Word) = .command (.wire2int 4 .w) := by decide
theorem test_decode_sn2int :
    decode (0b00000000000000100000011000001010 : Word) = .command (.sn2int 6 .rxcorr) ∧
    decode (0b00000000000000000000000100001010 : Word) = .command (.sn2int 1 .sn) := by decide
theorem test_decode_int2sn :
    decode (0b00000000000000100001100000001011 : Word) = .command (.int2sn 3 .ctxcorr) ∧
    decode (0b00000000000000000010100000001011 : Word) = .command (.int2sn 5 .sn) := by decide
theorem test_decode_packSync :
    decode (0b00000000000000000000000000100000 : Word) = .command .packSync := by decide
theorem test_decode_packDelayReq :
    decode (0b00000000000000000000000000100001 : Word) = .command .packDelayReq := by decide
theorem test_decode_packPdelayReq :
    decode (0b00000000000000000000000000100010 : Word) = .command .packPdelayReq := by decide
theorem test_decode_packPdelayResp :
    decode (0b00000000000000000000000000100011 : Word) = .command .packPdelayResp := by decide
theorem test_decode_packFollowUp :
    decode (0b00000000000000000000000000101000 : Word) = .command .packFollowUp := by decide
theorem test_decode_packDelayResp :
    decode (0b00000000000000000000000000101001 : Word) = .command .packDelayResp := by decide
theorem test_decode_packPdelayRespFu :
    decode (0b00000000000000000000000000101010 : Word) = .command .packPdelayRespFu := by decide
theorem test_decode_packAnnounce :
    decode (0b00000000000000000000000000101011 : Word) = .command .packAnnounce := by decide
theorem test_decode_packManagement :
    decode (0b00000000000000000000000000101101 : Word) = .command .packManagement := by decide
theorem test_decode_unpackSync :
    decode (0b00000000000000000000000000110000 : Word) = .command .unpackSync := by decide
theorem test_decode_unpackDelayReq :
    decode (0b00000000000000000000000000110001 : Word) = .command .unpackDelayReq := by decide
theorem test_decode_unpackPdelayReq :
    decode (0b00000000000000000000000000110010 : Word) = .command .unpackPdelayReq := by decide
theorem test_decode_unpackPdelayResp :
    decode (0b00000000000000000000000000110011 : Word) = .command .unpackPdelayResp := by decide
theorem test_decode_unpackFollowUp :
    decode (0b00000000000000000000000000111000 : Word) = .command .unpackFollowUp := by decide
theorem test_decode_unpackDelayResp :
    decode (0b00000000000000000000000000111001 : Word) = .command .unpackDelayResp := by decide
theorem test_decode_unpackPdelayRespFu :
    decode (0b00000000000000000000000000111010 : Word) = .command .unpackPdelayRespFu := by decide
theorem test_decode_unpackAnnounce :
    decode (0b00000000000000000000000000111011 : Word) = .command .unpackAnnounce := by decide
theorem test_decode_unpackManagement :
    decode (0b00000000000000000000000000111101 : Word) = .command .unpackManagement := by decide
theorem test_decode_unpackHdr :
    decode (0b00000000000000000000000001000000 : Word) = .command .unpackHdr := by decide

theorem test_decodeTableWord : decodeTableWord 32 0x00016602 = some (.add 6 4 5) ∧
    decodeTableWord 32 0x00000006 = none ∧ decodeTableWord 8 0x2B = some .packAnnounce := by decide
/-- The host's write of a word runs it as the first command after reset. -/
theorem test_withFetchWord :
    (stepped (State.reset.withFetchWord 32 0x00000005)).lOut = 0xFFFFFFFF ∧
      (stepped (State.reset.withFetchWord 32 0x00000005)).cmd = 5 := by decide

/-! ### Time arithmetic (95_test_vectors.md sections 1 and 2.2, P4) -/

theorem test_nop : (after .nop { State.reset with status := ⟨true, true, true, 3, true, true, true, true⟩ }).status.toWord
    = 0x00000F00 := by decide
theorem test_norm : result 2 (after (.norm 2 1) (withT [(1, 5, -2000000001)])) = (2, 999999999, 0) := by decide
theorem test_norm_wraps : result 1 (after (.norm 1 1) (withT [(1, 2147483647, 1000000000)]))
    = (-2147483648, 0, 0x00000252) := by decide
theorem test_add_negative : result 0 (after (.add 0 1 2) (withT [(1, -3, -250000000), (2, 1, 900000000)]))
    = (-1, -350000000, 0) := by decide
theorem test_add_wraps : result 1 (after (.add 1 1 2) (withT [(1, 2147483647, 999999999), (2, 0, 1)]))
    = (-2147483648, 0, 0x00000252) := by decide
theorem test_sub : result 3 (after (.sub 3 1 2) (withT [(1, 10, 0), (2, 3, -1)])) = (7, 1, 0) := by decide
theorem test_sub_wraps : result 2 (after (.sub 2 1 2) (withT [(1, -2147483648, 0), (2, 1, 0)]))
    = (2147483647, 0, 0x00000252) := by decide
theorem test_halve_odd : result 6 (after (.halve 6 6) (withT [(6, -3, -1)])) = (-1, -500000000, 0) := by decide
theorem test_halve_extreme : result 1 (after (.halve 1 0) (withT [(0, -2147483648, -2147483648)]))
    = (-1073741825, -73741824, 0) := by decide
theorem test_flog2 : (after .flog2 { State.reset with uIn := 1000 }).lOut = 9 := by decide
theorem test_flog2_edges : (after .flog2 State.reset).lOut = 0xFFFFFFFF ∧
    (after .flog2 { State.reset with uIn := 0x80000000 }).lOut = 31 := by decide

/-! ### Conversions (95_test_vectors.md sections 1 and 2.3) -/

theorem test_sn2int_negative : result 3 (after (.sn2int 3 .sn) { State.reset with sn := 0xFFFFA697D0FF8000 })
    = (-1, -500000000, 0) := by decide
theorem test_sn2int_lowest :
    result 3 (after (.sn2int 3 .rxcorr) { State.reset with rxh := { State.reset.rxh with corr := 0x8000000000000000 } })
    = (-140737, -488355328, 0) := by decide
theorem test_int2sn_highest : (after (.int2sn 1 .sn) (withT [(1, 140737, 488355327)])).sn = 0x7FFFFFFFFFFF0000 ∧
    (after (.int2sn 1 .ctxcorr) (withT [(1, -1, -500000000)])).ctx.corr = 0xFFFFA697D1000000 := by decide
theorem test_int2sn_fails : (after (.int2sn 1 .sn) { withT [(1, 140737, 488355328)] with sn := 7 }).sn = 7 ∧
    (after (.int2sn 1 .sn) (withT [(1, 140737, 488355328)])).status.toWord = 0x00000161 := by decide
theorem test_int2wire : (after (.int2wire 0) (withT [(0, 1700000000, 123456789)])).w
    = ⟨0x00006553F100, 0x075BCD15⟩ := by decide
theorem test_int2wire_fails : (after (.int2wire 0) { withT [(0, 5, -1)] with w := ⟨3, 4⟩ }).w = ⟨3, 4⟩ ∧
    (after (.int2wire 0) (withT [(0, 5, -1)])).status.toWord = 0x00000131 := by decide
theorem test_wire2int : result 1 (after (.wire2int 1 .rxts)
      { State.reset with rx := { State.reset.rx with tsSec := 0x00007FFFFFFF, tsNs := 0x80000000 } })
    = (2147483647, -2147483648, 0) := by decide
theorem test_wire2int_fails : result 1 (after (.wire2int 1 .w) { withT [(1, 7, 7)] with w := ⟨0x000100000000, 0⟩ })
    = (7, 7, 0x00000141) := by decide

/-! ### The framer, under context E (95_test_vectors.md section 2.4) -/

theorem test_packAnnounce : obufBytes 64 (after .packAnnounce contextE) =
   [0x0B, 0x02, 0x00, 0x40, 0x00, 0x00, 0x02, 0x00, 0x00, 0x00, 0x00, 0x00, 0x00, 0x00, 0x00, 0x00, 0x00, 0x00, 0x00, 0x00, 0x00, 0x11] ++
   [0x22, 0xFF, 0xFE, 0x33, 0x44, 0x55, 0x00, 0x01, 0x00, 0x05, 0x05, 0x00, 0x00, 0x00, 0x65, 0x53, 0xF1, 0x00, 0x07, 0x5B, 0xCD, 0x15] ++
   [0x00, 0x25, 0x00, 0x80, 0xF8, 0xFE, 0xFF, 0xFF, 0x80, 0x00, 0x11, 0x22, 0xFF, 0xFE, 0x33, 0x44, 0x55, 0x00, 0x00, 0xA0] := by decide +kernel
theorem test_packSync : obufBytes 44 (after .packSync contextE) =
   [0x00, 0x02, 0x00, 0x2C, 0x00, 0x00, 0x02, 0x00, 0x00, 0x00, 0x00, 0x00, 0x00, 0x00, 0x00, 0x00, 0x00, 0x00, 0x00, 0x00, 0x00, 0x11] ++
   [0x22, 0xFF, 0xFE, 0x33, 0x44, 0x55, 0x00, 0x01, 0x00, 0x05, 0x00, 0x00, 0x00, 0x00, 0x65, 0x53, 0xF1, 0x00, 0x07, 0x5B, 0xCD, 0x15] := by decide +kernel
theorem test_packFollowUp : obufBytes 44 (after .packFollowUp contextE) =
   [0x08, 0x02, 0x00, 0x2C, 0x00, 0x00, 0x02, 0x00, 0x00, 0x00, 0x00, 0x00, 0x00, 0x00, 0x00, 0x00, 0x00, 0x00, 0x00, 0x00, 0x00, 0x11] ++
   [0x22, 0xFF, 0xFE, 0x33, 0x44, 0x55, 0x00, 0x01, 0x00, 0x05, 0x02, 0x00, 0x00, 0x00, 0x65, 0x53, 0xF1, 0x00, 0x07, 0x5B, 0xCD, 0x15] := by decide +kernel
theorem test_packDelayReq : obufBytes 44 (after .packDelayReq contextE) =
   [0x01, 0x02, 0x00, 0x2C, 0x00, 0x00, 0x02, 0x00, 0x00, 0x00, 0x00, 0x00, 0x00, 0x00, 0x00, 0x00, 0x00, 0x00, 0x00, 0x00, 0x00, 0x11] ++
   [0x22, 0xFF, 0xFE, 0x33, 0x44, 0x55, 0x00, 0x01, 0x00, 0x05, 0x01, 0x00, 0x00, 0x00, 0x65, 0x53, 0xF1, 0x00, 0x07, 0x5B, 0xCD, 0x15] := by decide +kernel
theorem test_packDelayResp : obufBytes 54 (after .packDelayResp contextE) =
   [0x09, 0x02, 0x00, 0x36, 0x00, 0x00, 0x02, 0x00, 0x00, 0x00, 0x00, 0x00, 0x00, 0x00, 0x00, 0x00, 0x00, 0x00, 0x00, 0x00, 0x00, 0x11] ++
   [0x22, 0xFF, 0xFE, 0x33, 0x44, 0x55, 0x00, 0x01, 0x00, 0x05, 0x03, 0x00, 0x00, 0x00, 0x65, 0x53, 0xF1, 0x00, 0x07, 0x5B, 0xCD, 0x15] ++
   [0x0A, 0x0B, 0x0C, 0xFF, 0xFE, 0x0D, 0x0E, 0x0F, 0x00, 0x02] := by decide +kernel
theorem test_packPdelayReq : obufBytes 54 (after .packPdelayReq contextE) =
   [0x02, 0x02, 0x00, 0x36, 0x00, 0x00, 0x02, 0x00, 0x00, 0x00, 0x00, 0x00, 0x00, 0x00, 0x00, 0x00, 0x00, 0x00, 0x00, 0x00, 0x00, 0x11] ++
   [0x22, 0xFF, 0xFE, 0x33, 0x44, 0x55, 0x00, 0x01, 0x00, 0x05, 0x05, 0x00, 0x00, 0x00, 0x65, 0x53, 0xF1, 0x00, 0x07, 0x5B, 0xCD, 0x15] ++
   [0x00, 0x00, 0x00, 0x00, 0x00, 0x00, 0x00, 0x00, 0x00, 0x00] := by decide +kernel
theorem test_packPdelayResp : obufBytes 54 (after .packPdelayResp contextE) =
   [0x03, 0x02, 0x00, 0x36, 0x00, 0x00, 0x02, 0x00, 0x00, 0x00, 0x00, 0x00, 0x00, 0x00, 0x00, 0x00, 0x00, 0x00, 0x00, 0x00, 0x00, 0x11] ++
   [0x22, 0xFF, 0xFE, 0x33, 0x44, 0x55, 0x00, 0x01, 0x00, 0x05, 0x05, 0x00, 0x00, 0x00, 0x65, 0x53, 0xF1, 0x00, 0x07, 0x5B, 0xCD, 0x15] ++
   [0x0A, 0x0B, 0x0C, 0xFF, 0xFE, 0x0D, 0x0E, 0x0F, 0x00, 0x02] := by decide +kernel
theorem test_packPdelayRespFu : obufBytes 54 (after .packPdelayRespFu contextE) =
   [0x0A, 0x02, 0x00, 0x36, 0x00, 0x00, 0x02, 0x00, 0x00, 0x00, 0x00, 0x00, 0x00, 0x00, 0x00, 0x00, 0x00, 0x00, 0x00, 0x00, 0x00, 0x11] ++
   [0x22, 0xFF, 0xFE, 0x33, 0x44, 0x55, 0x00, 0x01, 0x00, 0x05, 0x05, 0x00, 0x00, 0x00, 0x65, 0x53, 0xF1, 0x00, 0x07, 0x5B, 0xCD, 0x15] ++
   [0x0A, 0x0B, 0x0C, 0xFF, 0xFE, 0x0D, 0x0E, 0x0F, 0x00, 0x02] := by decide +kernel
theorem test_packManagement : obufBytes 48 (after .packManagement contextE) =
   [0x0D, 0x02, 0x00, 0x30, 0x00, 0x00, 0x02, 0x00, 0x00, 0x00, 0x00, 0x00, 0x00, 0x00, 0x00, 0x00, 0x00, 0x00, 0x00, 0x00, 0x00, 0x11] ++
   [0x22, 0xFF, 0xFE, 0x33, 0x44, 0x55, 0x00, 0x01, 0x00, 0x05, 0x04, 0x00, 0xFF, 0xFF, 0xFF, 0xFF, 0xFF, 0xFF, 0xFF, 0xFF, 0xFF, 0xFF] ++
   [0x01, 0x01, 0x00, 0x00] := by decide +kernel
/-- The reset context frames the zeros of 70_reset_and_hazards.md R127: versionPTP 0 and clockIdentity 0. -/
theorem test_packSync_after_reset : obufBytes 44 (after .packSync State.reset) =
   [0x00, 0x00, 0x00, 0x2C] ++ List.replicate 40 0x00 := by decide +kernel

/-! ### The parser (95_test_vectors.md section 2.5) -/

/-- The Announce of section 2.4. -/
def messageAnnounce : List Byte :=
  [0x0B, 0x02, 0x00, 0x40, 0x00, 0x00, 0x02, 0x00, 0x00, 0x00, 0x00, 0x00, 0x00, 0x00, 0x00, 0x00, 0x00, 0x00, 0x00, 0x00, 0x00, 0x11] ++
   [0x22, 0xFF, 0xFE, 0x33, 0x44, 0x55, 0x00, 0x01, 0x00, 0x05, 0x05, 0x00, 0x00, 0x00, 0x65, 0x53, 0xF1, 0x00, 0x07, 0x5B, 0xCD, 0x15] ++
   [0x00, 0x25, 0x00, 0x80, 0xF8, 0xFE, 0xFF, 0xFF, 0x80, 0x00, 0x11, 0x22, 0xFF, 0xFE, 0x33, 0x44, 0x55, 0x00, 0x00, 0xA0]

/-- The Management of section 2.4. -/
def messageManagement : List Byte :=
  [0x0D, 0x02, 0x00, 0x30, 0x00, 0x00, 0x02, 0x00, 0x00, 0x00, 0x00, 0x00, 0x00, 0x00, 0x00, 0x00, 0x00, 0x00, 0x00, 0x00, 0x00, 0x11] ++
   [0x22, 0xFF, 0xFE, 0x33, 0x44, 0x55, 0x00, 0x01, 0x00, 0x05, 0x04, 0x00, 0xFF, 0xFF, 0xFF, 0xFF, 0xFF, 0xFF, 0xFF, 0xFF, 0xFF, 0xFF] ++
   [0x01, 0x01, 0x00, 0x00]

theorem test_unpackHdr : (after .unpackHdr (received messageS)).rxh =
    { transport := 1, msgtype := 0, version := 2, length := 44, domain := 24, flags := 0x0208,
      corr := 0x28000, clkid := 0xAABBCCFFFEDDEEFF, port := 1, seq := 0x1234, ctrl := 0,
      logint := 0xFE } := by decide +kernel
theorem test_unpackHdr_cfg : readData 0x180 .b4 (after .unpackHdr (received messageS)) = 0xFE180201 := by
  decide +kernel
theorem test_unpackDelayResp : (after .unpackDelayResp (received messageD)).rx =
    { State.reset.rx with tsSec := 0x00006553F102, tsNs := 5, reqclk := 0x001122FFFE334455, reqport := 1 } := by
  decide +kernel

theorem test_unpackSync : (after .unpackSync (received messageS)).rx =
    { State.reset.rx with tsSec := 0x00006553F101, tsNs := 0x3B9AC9FF } := by decide +kernel
theorem test_unpackFollowUp : (after .unpackFollowUp (received messageS)).rx =
    { State.reset.rx with tsSec := 0x00006553F101, tsNs := 0x3B9AC9FF } := by decide +kernel
theorem test_unpackDelayReq : (after .unpackDelayReq (received messageS)).rx =
    { State.reset.rx with tsSec := 0x00006553F101, tsNs := 0x3B9AC9FF } := by decide +kernel
theorem test_unpackPdelayReq : (after .unpackPdelayReq (received messageS)).rx =
    { State.reset.rx with tsSec := 0x00006553F101, tsNs := 0x3B9AC9FF } := by decide +kernel
theorem test_unpackPdelayResp : (after .unpackPdelayResp (received messageD)).rx =
    { State.reset.rx with tsSec := 0x00006553F102, tsNs := 5, reqclk := 0x001122FFFE334455, reqport := 1 } := by
  decide +kernel
theorem test_unpackPdelayRespFu : (after .unpackPdelayRespFu (received messageD)).rx =
    { State.reset.rx with tsSec := 0x00006553F102, tsNs := 5, reqclk := 0x001122FFFE334455, reqport := 1 } := by
  decide +kernel
theorem test_unpackAnnounce : [0x1D0, 0x1D4, 0x1D8, 0x1DC, 0x1E0].map
      (fun a => readData a .b4 (after .unpackAnnounce (received messageAnnounce))) =
    [0x80800025, 0xFFFFFEF8, 0x001122FF, 0xFE334455, 0x00A00000] := by decide +kernel
theorem test_unpackManagement : [0x1E8, 0x1EC, 0x1F0, 0x1F4].map
      (fun a => readData a .b4 (after .unpackManagement (received messageManagement))) =
    [0xFFFFFFFF, 0xFFFFFFFF, 0x0000FFFF, 0x00000101] := by decide +kernel

/-! ### The bus (95_test_vectors.md section 2.6) -/

/-- The unit with one interaction of the host to come. -/
def hosted (e : HostEvent) (s : State) : State := { s with pending := [e] }

theorem test_bus_read_obuf :
    [0x200, 0x204, 0x214, 0x218, 0x21C, 0x224, 0x228].map
      (fun a => (stepped (hosted (.read a .b4) (after .packSync contextE))).response) =
    [some (.readData 0x2C000200), some (.readData 0x00020000), some (.readData 0xFF221100),
     some (.readData 0x554433FE), some (.readData 0x05000100), some (.readData 0x00F15365),
     some (.readData 0x15CD5B07)] := by decide +kernel
theorem test_bus_read_narrow :
    (stepped (hosted (.read 0x202 .b2) (after .packSync contextE))).response = some (.readData 0x2C00) ∧
    (stepped (hosted (.read 0x203 .b1) (after .packSync contextE))).response = some (.readData 0x2C) := by
  decide +kernel
theorem test_bus_errors :
    (stepped (hosted (.read 0x002 .b4) State.reset)).response = some (.readError 0) ∧
    (stepped (hosted (.read 0x002 .b4) State.reset)).status.toWord = 0x00000800 ∧
    (stepped (hosted (.read 0x010 .b2) State.reset)).response = some (.readError 0) ∧
    (stepped (hosted (.write 0x000 .b1 5) State.reset)).cmd = 0 := by decide
theorem test_bus_read_only_and_reserved :
    (stepped (hosted (.write 0x014 .b4 5) State.reset)).response = some .written ∧
    (stepped (hosted (.write 0x014 .b4 5) State.reset)).lOut = 0 ∧
    (stepped (hosted (.read 0x008 .b4) State.reset)).response = some (.readData 0) := by decide
theorem test_bus_w_sec_hi :
    (stepped (hosted (.write 0x06C .b4 0xFFFFFFFF) State.reset)).w.sec = 0xFFFF00000000 := by decide
theorem test_bus_status_clear :
    (stepped (hosted (.write 0x004 .b4 0x00000F00)
      { State.reset with status := ⟨false, true, false, 5, false, true, true, true⟩ })).status.toWord =
      0x00000052 := by decide
theorem test_bus_illegal_word :
    (stepped (hosted (.write 0x000 .b4 0x00000006) State.reset)).status.toWord = 0x00000414 ∧
    (stepped (hosted (.write 0x000 .b4 0x00000120) State.reset)).status.toWord = 0x00000424 ∧
    (stepped (hosted (.write 0x000 .b4 0x00000120) State.reset)).obuf = [] := by decide

/-! ### Witnesses: a concrete state and operands that meet all the hypotheses of a statement -/

theorem witness_StepPerformsTheDecodedCommand :
    decode 0x00016602 = .command (.add 6 4 5) ∧ decode 0x00000000 = .command .nop := by decide

theorem witness_IllegalWordOnlyRecords :
    decode 0x00000041 = .illegal .reservedOpcode ∧ decode 0x80000000 = .illegal .nonzeroField := by decide

theorem witness_EveryRunEnds : State.reset.pending = [] := rfl

/-- A step that starts a command, from a state that meets the invariant. -/
theorem witness_StepKeepsInvariant :
    (hosted (.write 0x000 .b4 0x00000000) State.reset).Inv ∧
      step (hosted (.write 0x000 .b4 0x00000000) State.reset) =
        .next (stepped (hosted (.write 0x000 .b4 0x00000000) State.reset)) := by
  constructor
  · decide
  · rfl

/-- Each clause: a command that does write the register. -/
theorem witness_CommandsWriteOnlyTheirDestinations :
    (after (.sn2int 7 .sn) { State.reset with sn := 0x10000 }).t ≠ State.reset.t ∧
    (after (.int2sn 1 .sn) (withT [(1, 0, 1)])).sn ≠ 0 ∧
    (after (.int2wire 1) (withT [(1, 0, 1)])).w ≠ ⟨0, 0⟩ ∧
    (after .flog2 State.reset).lOut ≠ 0 ∧
    (after (.int2sn 1 .ctxcorr) (withT [(1, 0, 1)])).ctx ≠ State.reset.ctx ∧
    (after .unpackHdr (received messageS)).rxh ≠ State.reset.rxh ∧
    (after .unpackSync (received messageS)).rx ≠ State.reset.rx ∧
    (after .packSync State.reset).obuf ≠ State.reset.obuf := by decide +kernel

/-- A legal and an illegal word, so both sides of the equivalence occur. -/
theorem witness_CommandWordUpdatesStatus :
    (∀ i, decode 0x00000006 ≠ .command i) ∧ decode 0x00000005 = .command .flog2 := by
  refine ⟨fun i h => ?_, by decide⟩
  rw [show decode 0x00000006 = .illegal .reservedOpcode by decide] at h
  cases h

/-- Each condition occurs. -/
theorem witness_ConditionsHaveTheirCauses :
    StatusFailed 3 (withT [(0, 0, -1)]) (after (.int2wire 0) (withT [(0, 0, -1)])) ∧
    StatusFailed 4 { State.reset with w := ⟨0x80000000, 0⟩ }
      (after (.wire2int 0 .w) { State.reset with w := ⟨0x80000000, 0⟩ }) ∧
    StatusFailed 6 (withT [(0, -140737, -488355329)]) (after (.int2sn 0 .sn) (withT [(0, -140737, -488355329)])) ∧
    StatusOverflowed (withT [(0, 2147483647, 1000000000)])
      (after (.norm 1 0) (withT [(0, 2147483647, 1000000000)])) ∧
    StatusCleared (withT [(0, 2147483647, 999999999)])
      (after (.norm 1 0) (withT [(0, 2147483647, 999999999)])) := by
  unfold StatusFailed StatusOverflowed StatusCleared
  decide

/-- The seconds at both ends of int32 and one past each, and an overflow. -/
theorem witness_NormWritesCanonicalForm :
    (totalOf (withT [(0, 2147483647, 999999999)]) 0).tdiv 1000000000 = 2 ^ 31 - 1 ∧
    (totalOf (withT [(0, -2147483648, -999999999)]) 0).tdiv 1000000000 = -2 ^ 31 ∧
    (totalOf (withT [(0, 2147483647, 1000000000)]) 0).tdiv 1000000000 = 2 ^ 31 ∧
    (totalOf (withT [(0, -2147483648, -1000000000)]) 0).tdiv 1000000000 = -2 ^ 31 - 1 ∧
    (after (.norm 0 0) (withT [(0, 2147483646, 2000000000)])).status.ovf = true := by decide

theorem witness_AddWritesNormalizedSum :
    (after (.add 2 0 1) (withT [(0, 2147483647, 0), (1, 0, 999999999)])).status.ovf = false ∧
    (after (.add 2 0 1) (withT [(0, 2147483647, 0), (1, 1, 0)])).status.ovf = true ∧
    (after (.add 2 0 1) (withT [(0, -2147483648, 0), (1, 0, -999999999)])).status.ovf = false ∧
    (after (.add 2 0 1) (withT [(0, -2147483648, 0), (1, 0, -1000000000)])).status.ovf = true := by decide

/-- Both ranges of the quotient; the clause `rs1 = rs2` holds of the operands 3 and 3. -/
theorem witness_SubWritesNormalizedDifference :
    (after (.sub 2 0 1) (withT [(0, -2147483648, 0), (1, 0, 999999999)])).status.ovf = false ∧
    (after (.sub 2 0 1) (withT [(0, -2147483648, 0), (1, 0, 1000000000)])).status.ovf = true ∧
    after (.sub 5 3 3) (withT [(3, -2147483648, -2147483648)]) =
      withT [(3, -2147483648, -2147483648)] := by decide

/-- A normalized input at the end of both ranges, and one that is not normalized. -/
theorem witness_NormHalveAndSn2intOnNormalizedTimes :
    Normalized (secOf (withT [(0, -2147483648, -999999999)]) 0) (nsOf (withT [(0, -2147483648, -999999999)]) 0) ∧
    ¬ Normalized (secOf (withT [(0, 2, -1)]) 0) (nsOf (withT [(0, 2, -1)]) 0) := by decide

/-- `U_IN` 0, and the highest bit at both ends of its range. -/
theorem witness_Flog2WritesHighestBit :
    State.reset.uIn = 0 ∧
    (∀ j, 0 < j → (1#32).getLsbD j = false) ∧ (1#32).getLsbD 0 = true ∧
    (∀ j, 31 < j → (0x80000001#32).getLsbD j = false) ∧ (0x80000001#32).getLsbD 31 = true := by
  refine ⟨rfl, fun j hj => ?_, by decide, fun j hj => ?_, by decide⟩
  · simp only [BitVec.getLsbD_one, Bool.and_eq_false_iff, decide_eq_false_iff_not]
    omega
  · exact BitVec.getLsbD_of_ge _ _ (by omega)

theorem witness_CanonIsTheOnlyNormalizedPair :
    Normalized (-2) (-999999999) ∧ ((-2 : Int) * 1000000000 + -999999999 = -2999999999) ∧
      Normalized 0 999999999 := by decide

/-- OVF 0 after NORM, ADD, SUB, and after ADD and SUB in turn with the sum in another register than `b`; a
source that is normalized and one that is not. -/
theorem witness_ArithmeticPreservesValue :
    (after (.norm 0 1) (withT [(1, 1, -1)])).status.ovf = false ∧
    (after (.add 0 1 2) (withT [(1, 1, -1), (2, 1, 900000000)])).status.ovf = false ∧
    (after (.sub 0 1 2) (withT [(1, 1, -1), (2, 1, 900000000)])).status.ovf = false ∧
    (after (.sub 3 0 2) (after (.add 0 1 2) (withT [(1, 1, -1), (2, 1, 900000000)]))).status.ovf = false ∧
    (0 : TReg) ≠ 2 ∧ Normalized (-3) (-250000000) ∧ ¬ Normalized 1 (-1) := by decide

/-- The value 0 and -1, at the boundary of the two sign clauses. -/
theorem witness_Sn2intTruncatesTowardZero :
    0 ≤ (snOperand State.reset .sn).toInt ∧
    (snOperand { State.reset with rxh := { State.reset.rxh with corr := 0xFFFFFFFFFFFFFFFF } } .rxcorr).toInt < 0 := by
  decide

/-- The totals at both ends of the range, and one outside each end. -/
theorem witness_Int2snWritesScaledTotal :
    totalOf (withT [(0, 140737, 488355327)]) 0 = 2 ^ 47 - 1 ∧
    totalOf (withT [(0, -140737, -488355328)]) 0 = -2 ^ 47 ∧
    totalOf (withT [(0, 140737, 488355328)]) 0 = 2 ^ 47 ∧
    totalOf (withT [(0, -140737, -488355329)]) 0 = -2 ^ 47 - 1 := by decide

theorem witness_Int2wireCopiesOrFails :
    (0 ≤ secOf State.reset 0 ∧ 0 ≤ nsOf State.reset 0) ∧ secOf (withT [(0, -1, 0)]) 0 < 0 ∧
    nsOf (withT [(0, 5, -1)]) 0 < 0 := by decide

theorem witness_Wire2intCopiesOrFails :
    wireOperand { State.reset with w := ⟨0x7FFFFFFF, 0xFFFFFFFF⟩ } .w = (0x7FFFFFFF, 0xFFFFFFFF) ∧
    (0x7FFFFFFF : BitVec 48).toNat ≤ 2 ^ 31 - 1 ∧
    wireOperand { State.reset with rx := { State.reset.rx with tsSec := 0x80000000 } } .rxts = (0x80000000, 0) ∧
    2 ^ 31 - 1 < (0x80000000 : BitVec 48).toNat := by decide

/-- Each round trip's condition, at the end of its range. -/
theorem witness_ConversionsRoundTrip :
    (after (.int2sn 0 .sn) (withT [(0, -140737, -488355328)])).status.fail = false ∧
    0 ≤ secOf (withT [(0, 2147483647, 0)]) 0 ∧ 0 ≤ nsOf (withT [(0, 2147483647, 0)]) 0 ∧
    (WireTimestamp.mk 0x7FFFFFFF 0x7FFFFFFF).sec.toNat ≤ 2 ^ 31 - 1 ∧
    (WireTimestamp.mk 0x7FFFFFFF 0x7FFFFFFF).ns.toNat ≤ 2 ^ 31 - 1 := by decide

/-- Two machines with the same context and payload that differ elsewhere, also in `W` for the second clause. -/
theorem witness_PackReadsOnlyItsSources :
    (Instr.packManagement, 0xD, 48, 0x04) ∈ packTable ∧ (Instr.packSync, 0x0, 44, 0x00) ∈ packTable ∧
    contextE.ctx = { contextE with sn := 1, w := ⟨1, 1⟩ }.ctx ∧
    contextE.tx = { contextE with sn := 1, w := ⟨1, 1⟩ }.tx ∧
    contextE.w = { contextE with sn := 1 }.w ∧ contextE ≠ { contextE with sn := 1 } ∧
    contextE.w ≠ { contextE with sn := 1, w := ⟨1, 1⟩ }.w := by decide

theorem witness_UnpackTimestampBodies :
    (0x32, Instr.unpackPdelayReq) ∈ [(0x30, Instr.unpackSync), (0x38, .unpackFollowUp),
      (0x31, .unpackDelayReq), (0x32, .unpackPdelayReq)] := by decide

/-- Two machines with the same records and the same first 64 bytes of IBUF that differ in byte 64 and in `SN`. -/
theorem witness_UnpackReadsOnlyFirst64Bytes :
    Instr.unpackHdr ∈ unpackCommands ∧ Instr.unpackManagement ∈ unpackCommands ∧
    ((received messageAnnounce).setBytes .ibuf 64 [1]).rx = ({ received messageAnnounce with sn := 1 } : State).rx ∧
    ((received messageAnnounce).setBytes .ibuf 64 [1]).rxh = ({ received messageAnnounce with sn := 1 } : State).rxh ∧
    ∀ off, off < 64 → ((received messageAnnounce).setBytes .ibuf 64 [1]).byteAt .ibuf off =
      ({ received messageAnnounce with sn := 1 }).byteAt .ibuf off := by
  refine ⟨by decide, by decide, rfl, rfl, fun off ho => ?_⟩
  rw [State.byteAt_setBytes, if_neg (by omega)]
  rfl

/-- The first bytes of OBUF, sent and received by another machine. -/
theorem received_obufBytes (n : Nat) (t : State) : Received n t (received (obufBytes n t)) := by
  intro off ho
  rw [received, State.byteAt_setBytes, if_pos ⟨rfl, by omega, by simpa [obufBytes] using ho⟩]
  simp [obufBytes, List.getD_eq_getElem?_getD, ho]

theorem witness_FramedHeadersParseBack :
    (Instr.packSync, 0x0, 44, 0x00) ∈ packTable ∧ exec .packSync contextE = .next (after .packSync contextE) ∧
      Received 44 (after .packSync contextE) (received (obufBytes 44 (after .packSync contextE))) :=
  ⟨by decide, rfl, received_obufBytes _ _⟩

theorem witness_FramedBodiesParseBack :
    Received 44 (after .packSync contextE) (received (obufBytes 44 (after .packSync contextE))) ∧
    Received 54 (after .packDelayResp contextE) (received (obufBytes 54 (after .packDelayResp contextE))) ∧
    Received 64 (after .packAnnounce contextE) (received (obufBytes 64 (after .packAnnounce contextE))) ∧
    Received 48 (after .packManagement contextE) (received (obufBytes 48 (after .packManagement contextE))) :=
  ⟨received_obufBytes _ _, received_obufBytes _ _, received_obufBytes _ _, received_obufBytes _ _⟩

/-- Bus errors and legal accesses at the edges of both regions. -/
theorem witness_BusErrorsChangeOnlyTheirBit :
    BusErrorAccess 0x1FC .b2 ∧ BusErrorAccess 0x1FE .b4 ∧ BusErrorAccess 0x000 .b1 ∧ BusErrorAccess 0x201 .b2 ∧
    BusErrorAccess 0x3FE .b4 ∧ ¬ BusErrorAccess 0x000 .b4 ∧ ¬ BusErrorAccess 0x1FC .b4 ∧
    ¬ BusErrorAccess 0x200 .b1 ∧ ¬ BusErrorAccess 0x3FF .b1 ∧ ¬ BusErrorAccess 0x3FE .b2 ∧
    ¬ BusErrorAccess 0x3FC .b4 := by
  refine ⟨?_, ?_, ?_, ?_, ?_, ?_, ?_, ?_, ?_, ?_, ?_⟩ <;> decide

theorem witness_LegalReadsHaveNoSideEffect :
    ¬ BusErrorAccess (0x200 : BitVec 10).toNat .b1 ∧ ¬ BusErrorAccess (0x1FC : BitVec 10).toNat .b4 := by decide

/-- The first and last words of the region, a listed word, both halves of `T0` and `T7`, reserved words. -/
theorem witness_RegisterWordsReadTheirFields :
    ((0x000 : BitVec 10).toNat < 0x200 ∧ (0x000 : BitVec 10).toNat % 4 = 0 ∧
      (0x000, State.reset.cmd.toNat) ∈ registerValues State.reset) ∧
    (0x1F4, 0) ∈ registerValues State.reset ∧
    (0x020 : BitVec 10).toNat = 0x020 + 8 * (0 : TReg).val ∧
    (0x058 : BitVec 10).toNat = 0x020 + 8 * (7 : TReg).val ∧
    (0x024 : BitVec 10).toNat = 0x024 + 8 * (0 : TReg).val ∧
    (0x05C : BitVec 10).toNat = 0x024 + 8 * (7 : TReg).val ∧
    reservedWord 0x008 ∧ reservedWord 0x074 ∧ reservedWord 0x0FC ∧
    reservedWord (0x1FC : BitVec 10).toNat := by
  refine ⟨⟨?_, ?_, ?_⟩, ?_, ?_, ?_, ?_, ?_, ?_, ?_, ?_, ?_⟩ <;> decide

theorem witness_RegisterWritesSetTheirFields :
    (0x008 ≤ (0x008 : BitVec 10).toNat ∧ (0x008 : BitVec 10).toNat < 0x200 ∧ (0x008 : BitVec 10).toNat % 4 = 0) ∧
    (0x008 ≤ (0x1FC : BitVec 10).toNat ∧ (0x1FC : BitVec 10).toNat < 0x200 ∧ (0x1FC : BitVec 10).toNat % 4 = 0) ∧
    (0x100 < 0x200 ∧ 0x100 % 4 = 0 ∧ 0x100 ≠ (0x1FC : BitVec 10).toNat) := by decide

theorem witness_WindowAccessesMoveTheirBytes :
    (255 < 256 ∧ 255 % accessBytes .b1 = 0 ∧ (0x2FF : BitVec 10).toNat = windowBase .obuf + 255) ∧
    (254 < 256 ∧ 254 % accessBytes .b2 = 0 ∧ (0x3FE : BitVec 10).toNat = windowBase .ibuf + 254) ∧
    (252 < 256 ∧ 252 % accessBytes .b4 = 0 ∧ (0x3FC : BitVec 10).toNat = windowBase .ibuf + 252) ∧
    (0 < 256 ∧ 0 % accessBytes .b4 = 0 ∧ (0x200 : BitVec 10).toNat = windowBase .obuf + 0) := by decide

theorem witness_BufferWordsReadLittleEndian : 0 < 64 ∧ 63 < 64 := by decide

/-- A byte that changes (`hosted` has the interaction pending, and every step answers a next state): by a legal
write, by a PACK command, and by a reset (whatever the free value is). -/
theorem witness_BufferBytesChangeOnlyByTheirWriters :
    (stepped (hosted (.write 0x3FF .b1 7) (received (List.replicate 256 0)))).byteAt .ibuf 255 ≠
      (received (List.replicate 256 0)).byteAt .ibuf 255 ∧
    (stepped (hosted (.write 0x000 .b4 0x20) (State.reset.setBytes .obuf 0 [7]))).byteAt .obuf 0 ≠
      (State.reset.setBytes .obuf 0 [7]).byteAt .obuf 0 ∧
    (stepped (hosted .reset (State.reset.setBytes .obuf 0 [Config.unwrittenByte .obuf 1 0 + 1]))).byteAt .obuf 0 ≠
      (State.reset.setBytes .obuf 0 [Config.unwrittenByte .obuf 1 0 + 1]).byteAt .obuf 0 := by
  refine ⟨by decide +kernel, by decide +kernel, ?_⟩
  show Config.unwrittenByte .obuf 1 0 ≠ Config.unwrittenByte .obuf 1 0 + 1
  generalize Config.unwrittenByte .obuf 1 0 = x
  revert x
  decide

/-- A read-only record that changes, for each clause. -/
theorem witness_ReadOnlyRecordsChangeOnlyByCommands :
    (stepped (hosted (.write 0x000 .b4 0x40) (received messageS))).rxh ≠ (received messageS).rxh ∧
    (stepped (hosted (.write 0x000 .b4 0x30) (received messageS))).rx ≠ (received messageS).rx ∧
    (stepped (hosted (.write 0x000 .b4 0x05) State.reset)).lOut ≠ State.reset.lOut ∧
    HostEvent.write 0x000 .b4 0x05 ≠ .reset := by decide +kernel

/-- Sticky bits that clear, at both ends of the range: S_FAIL by a reset and by its own bit of a STATUS write,
S_BUSERR by its own bit. -/
theorem witness_StickyBitsClearOnlyByHost :
    (8 ≤ 8 ∧ 8 ≤ 11 ∧ 8 ≤ 11 ∧ 11 ≤ 11) ∧
    (let s : State := { State.reset with status := { State.reset.status with sFail := true, sBusErr := true } }
     s.status.toWord.getLsbD 8 = true ∧ s.status.toWord.getLsbD 11 = true ∧
     (stepped (hosted .reset s)).status.toWord.getLsbD 8 = false ∧
     (stepped (hosted (.write 0x004 .b4 0x100) s)).status.toWord.getLsbD 8 = false ∧
     (stepped (hosted (.write 0x004 .b4 0x800) s)).status.toWord.getLsbD 11 = false ∧
     (0x100 : Word).getLsbD 8 = true ∧ (0x800 : Word).getLsbD 11 = true) := by decide +kernel

end Sys2Proof.Tests
end

/-! PROOFS of the statements of 10_state.md: which register a command writes (O10), the
read-only records (O51), and the only normalized pair (O19). -/

namespace Sys2Proof.Machine

open Sys2Proof.Slice0

/-! ### The destination of a command (10_state.md R14, R18 to R27) -/

/-- The place a command writes beside STATUS. -/
inductive Destination where
  /-- Nothing: NOP. -/
  | nothing
  /-- A register of the `T` file. -/
  | t
  | sn | w | lOut
  /-- `CTX.corr`, the only field of `CTX` that a command writes (R23). -/
  | ctxCorr
  | rxh | rx | obuf

/-- Where each command writes. -/
def destinationOf : Instr → Destination
  | .nop => .nothing
  | .norm .. | .add .. | .sub .. | .halve .. | .wire2int .. | .sn2int .. => .t
  | .flog2 => .lOut
  | .int2wire _ => .w
  | .int2sn _ .sn => .sn
  | .int2sn _ .ctxcorr => .ctxCorr
  | .packSync | .packDelayReq | .packPdelayReq | .packPdelayResp | .packFollowUp | .packDelayResp
  | .packPdelayRespFu | .packAnnounce | .packManagement => .obuf
  | .unpackHdr => .rxh
  | .unpackSync | .unpackDelayReq | .unpackPdelayReq | .unpackPdelayResp | .unpackFollowUp
  | .unpackDelayResp | .unpackPdelayRespFu | .unpackAnnounce | .unpackManagement => .rx

/-- From `s` to `u` nothing changed but STATUS and the given place. -/
def Destination.Frame (s u : State) : Destination → Prop
  | .nothing => u = { s with status := u.status }
  | .t => u = { s with status := u.status, t := u.t }
  | .sn => u = { s with status := u.status, sn := u.sn }
  | .w => u = { s with status := u.status, w := u.w }
  | .lOut => u = { s with status := u.status, lOut := u.lOut }
  | .ctxCorr => u = { s with status := u.status, ctx := { s.ctx with corr := u.ctx.corr } }
  | .rxh => u = { s with status := u.status, rxh := u.rxh }
  | .rx => u = { s with status := u.status, rx := u.rx }
  | .obuf => u = { s with status := u.status, obuf := u.obuf }

theorem writeNormalized_frame_t (s : State) (d : TReg) (X : Int) :
    Destination.t.Frame s (s.beginCommand.writeNormalized d X) :=
  State.writeNormalized_frame ..

theorem writeFields_frame_obuf (s : State) (fs : List FieldWrite) :
    Destination.obuf.Frame s (s.beginCommand.writeFields fs) := by
  have hst : (s.beginCommand.writeFields fs).status = s.beginCommand.status := by
    rw [State.writeFields_eq]
  simp only [Destination.Frame, hst]
  exact State.writeFields_eq ..

/-- A command changes nothing but STATUS and its destination. -/
theorem exec_frame {i : Instr} {s u : State} (h : exec i s = .next u) :
    (destinationOf i).Frame s u := by
  cases i with
  | norm | add | sub => cases h; exact writeNormalized_frame_t ..
  | packSync | packDelayReq | packPdelayReq | packPdelayResp | packFollowUp | packDelayResp
  | packPdelayRespFu | packAnnounce | packManagement => cases h; exact writeFields_frame_obuf ..
  | int2wire | wire2int => cases h; split <;> rfl
  | int2sn a x => cases x <;> (cases h; split <;> rfl)
  | _ => cases h; rfl

/-- What changed names the destination. -/
theorem Destination.Frame.changes {d : Destination} {s u : State} (h : d.Frame s u) :
    (u.t ≠ s.t → d = .t) ∧ (u.sn ≠ s.sn → d = .sn) ∧ (u.w ≠ s.w → d = .w) ∧
      (u.lOut ≠ s.lOut → d = .lOut) ∧
      (u.ctx ≠ s.ctx → d = .ctxCorr ∧ u.ctx = { s.ctx with corr := u.ctx.corr }) ∧
      (u.rxh ≠ s.rxh → d = .rxh) ∧ (u.rx ≠ s.rx → d = .rx) ∧ (u.obuf ≠ s.obuf → d = .obuf) := by
  cases d <;> (unfold Destination.Frame at h; rw [h]; simp)

/-! Which commands have which destination. -/

section
variable {i : Instr}

theorem of_destinationOf_t (h : destinationOf i = .t) :
    (∃ d a, i = .norm d a) ∨ (∃ d a b, i = .add d a b) ∨ (∃ d a b, i = .sub d a b) ∨
      (∃ d a, i = .halve d a) ∨ (∃ d x, i = .wire2int d x) ∨ ∃ d x, i = .sn2int d x := by
  cases i with
  | norm | add | sub | halve | wire2int | sn2int => simp
  | int2sn a x => cases x <;> cases h
  | _ => cases h

theorem of_destinationOf_sn (h : destinationOf i = .sn) : ∃ a, i = .int2sn a .sn := by
  cases i with
  | int2sn a x => cases x with
    | sn => exact ⟨a, rfl⟩
    | ctxcorr => cases h
  | _ => cases h

theorem of_destinationOf_ctxCorr (h : destinationOf i = .ctxCorr) : ∃ a, i = .int2sn a .ctxcorr := by
  cases i with
  | int2sn a x => cases x with
    | sn => cases h
    | ctxcorr => exact ⟨a, rfl⟩
  | _ => cases h

theorem of_destinationOf_w (h : destinationOf i = .w) : ∃ a, i = .int2wire a := by
  cases i with
  | int2wire a => exact ⟨a, rfl⟩
  | int2sn a x => cases x <;> cases h
  | _ => cases h

theorem of_destinationOf_lOut (h : destinationOf i = .lOut) : i = .flog2 := by
  cases i with
  | flog2 => rfl
  | int2sn a x => cases x <;> cases h
  | _ => cases h

theorem of_destinationOf_rxh (h : destinationOf i = .rxh) : i = .unpackHdr := by
  cases i with
  | unpackHdr => rfl
  | int2sn a x => cases x <;> cases h
  | _ => cases h

theorem of_destinationOf_rx (h : destinationOf i = .rx) : i ∈ unpackCommands ∧ i ≠ .unpackHdr := by
  cases i with
  | unpackSync | unpackDelayReq | unpackPdelayReq | unpackPdelayResp | unpackFollowUp
  | unpackDelayResp | unpackPdelayRespFu | unpackAnnounce | unpackManagement =>
    simp [unpackCommands]
  | int2sn a x => cases x <;> cases h
  | _ => cases h

theorem of_destinationOf_obuf (h : destinationOf i = .obuf) : ∃ p ∈ packTable, p.1 = i := by
  cases i with
  | packSync | packDelayReq | packPdelayReq | packPdelayResp | packFollowUp | packDelayResp
  | packPdelayRespFu | packAnnounce | packManagement => simp [packTable]
  | int2sn a x => cases x <;> cases h
  | _ => cases h

end

/-- Settles O10: what changed names the destination, and the destination the commands; the rest is
`exec_keeps`. -/
theorem commandsWriteOnlyTheirDestinations : Obligations.CommandsWriteOnlyTheirDestinations := by
  intro i s
  obtain ⟨u, hu⟩ := exec_next i s
  obtain ⟨ht, hsn, hw, hl, hc, hrxh, hrx, ho⟩ := (exec_frame hu).changes
  exact ⟨u, hu, of_destinationOf_t ∘ ht, of_destinationOf_sn ∘ hsn, of_destinationOf_w ∘ hw,
    of_destinationOf_lOut ∘ hl, fun h => (hc h).imp_left of_destinationOf_ctxCorr,
    of_destinationOf_rxh ∘ hrxh, of_destinationOf_rx ∘ hrx, of_destinationOf_obuf ∘ ho,
    exec_keeps hu⟩

/-! ### The read-only records (10_state.md R20, R25, R26) -/

/-- An interaction that is no reset leaves the receive records and `L_OUT`, or it is the host's write of a
command's own word to CMD, and the command ran on those same records. -/
theorem hostEvent_records {e : HostEvent} {s t : State} (h : hostEvent e s = .next t)
    (hr : e ≠ .reset) :
    (t.rxh = s.rxh ∧ t.rx = s.rx ∧ t.lOut = s.lOut) ∨
      ∃ i s', e = .write 0x000 .b4 (encode i) ∧ exec i s' = .next t ∧
        s'.rxh = s.rxh ∧ s'.rx = s.rx ∧ s'.lOut = s.lOut := by
  rcases hostEvent_cases h with ⟨rfl, -⟩ | ⟨_, _, -, -, rfl⟩ | ⟨_, _, -, -, rfl⟩ |
    ⟨_, _, _, -, -, rfl⟩ | ⟨v, rfl, hp⟩ | ⟨_, v, r, -, -, -, -, -, rfl⟩ | ⟨_, _, -, -, -, -, rfl⟩ |
    ⟨_, _, _, -, -, -, rfl⟩
  · exact absurd rfl hr
  · exact .inl ⟨rfl, rfl, rfl⟩
  · exact .inl ⟨rfl, rfl, rfl⟩
  · exact .inl ⟨rfl, rfl, rfl⟩
  · rcases performCommand_cases hp with ⟨i, hd, hx⟩ | ⟨_, -, rfl⟩
    · exact .inr ⟨i, _, by rw [encode_of_decode hd], hx, rfl, rfl, rfl⟩
    · exact .inl ⟨rfl, rfl, rfl⟩
  · obtain ⟨-, -, -, -, -, h1, h2, h3⟩ := regWrite_keeps r v (s.respond .written)
    exact .inl ⟨h1, h2, h3⟩
  · exact .inl ⟨rfl, rfl, rfl⟩
  · exact .inl ⟨State.setBytes_rxh .., State.setBytes_rx .., State.setBytes_lOut ..⟩

/-- Settles O51: only a command changes a record, and its destination names the command. -/
theorem readOnlyRecordsChangeOnlyByCommands : Obligations.ReadOnlyRecordsChangeOnlyByCommands := by
  intro s t e rest hp hs hr
  rw [step_of_pending hp] at hs
  rcases hostEvent_records hs hr with ⟨h1, h2, h3⟩ | ⟨i, s', rfl, hx, h1, h2, h3⟩
  · exact ⟨fun h => absurd h1 h, fun h => absurd h2 h, fun h => absurd h3 h⟩
  · obtain ⟨-, -, -, hl, -, hrxh, hrx, -⟩ := (exec_frame hx).changes
    rw [h1] at hrxh
    rw [h2] at hrx
    rw [h3] at hl
    refine ⟨fun h => ?_, fun h => ?_, fun h => ?_⟩
    · rw [of_destinationOf_rxh (hrxh h)]
    · obtain ⟨hm, hn⟩ := of_destinationOf_rx (hrx h)
      exact ⟨i, hm, hn, rfl⟩
    · rw [of_destinationOf_lOut (hl h)]

/-! ### `canon` (10_state.md R16) -/

/-- Settles O19, from the laws of `canon`. -/
theorem canonIsTheOnlyNormalizedPair : Obligations.CanonIsTheOnlyNormalizedPair := fun X =>
  ⟨canon_normalized X, canon_total X, fun _ _ hn ht => canon_eq_of_normalized hn ht⟩

end Sys2Proof.Machine

/-! PROOFS of the statements of 10_state.md about the register words: what a host read gives (O44) and what a
host write sets and leaves (O45). -/

namespace Sys2Proof.Machine

open Sys2Proof.Slice0

/-! ### The register region under a host access (10_state.md R28; 20_memory.md R33, R35) -/

theorem legalAccess_word {a : Nat} (h1 : a < 0x200) (h2 : a % 4 = 0) : legalAccess a .b4 = true := by
  unfold legalAccess
  rw [if_pos h1]
  simpa using h2

/-- A legal read answers the data of the register word and changes nothing of the unit. -/
theorem step_read_word {a : BitVec 10} (h1 : a.toNat < 0x200) (h2 : a.toNat % 4 = 0) (s : State)
    (rest : List HostEvent) :
    step { s with pending := .read a .b4 :: rest } =
      .next { s with pending := rest, response := some (.readData (readData a.toNat .b4 s)) } := by
  rw [step_cons]
  simp only [hostEvent, hostRead, legalAccess_word h1 h2, if_true]
  rw [show readData a.toNat .b4 { s with pending := rest } = readData a.toNat .b4 s from
    readData_congr a.toNat .b4 s rest s.response]
  rfl

/-- A legal write to a reserved word changes nothing of the unit (20_memory.md R35). -/
theorem step_write_reserved {a : BitVec 10} (h1 : a.toNat < 0x200) (h2 : a.toNat % 4 = 0)
    (hr : regAt a.toNat = none) (s : State) (rest : List HostEvent) (v : Word) :
    step { s with pending := .write a .b4 v :: rest } =
      .next { s with pending := rest, response := some .written } := by
  rw [step_cons]
  simp only [hostEvent, hostWrite, legalAccess_word h1 h2, h1, hr, if_true]
  rfl

theorem readData_of_regAt {a : Nat} {r : RegWord} (h : a < 0x200) (hr : regAt a = some r)
    (n : AccessSize) (s : State) : readData a n s = regRead r s := by
  rw [readData_register h, hr]

theorem readData_of_reserved {a : Nat} (h : a < 0x200) (hr : regAt a = none) (n : AccessSize)
    (s : State) : readData a n s = 0 := by
  rw [readData_register h, hr]

/-! ### The register map (10_state.md R28) -/

theorem regAt_tSec : ∀ i : TReg, regAt (0x020 + 8 * i.val) = some (.tSec i) := by decide

theorem regAt_tNs : ∀ i : TReg, regAt (0x024 + 8 * i.val) = some (.tNs i) := by decide

theorem regAt_reservedWord : ∀ a : BitVec 10, reservedWord a.toNat → regAt a.toNat = none := by
  decide +kernel

/-- No register word stands at two offsets: said once as a list without repetition, the words of the 128
multiples of 4. -/
theorem registerMap_nodup : ((List.range 128).filterMap fun k => regAt (4 * k)).Nodup := by
  decide +kernel

theorem regAt_injective {a b : Nat} {r : RegWord} (ha : a < 0x200) (ha4 : a % 4 = 0) (hb : b < 0x200)
    (hb4 : b % 4 = 0) (hra : regAt a = some r) (hrb : regAt b = some r) : a = b := by
  have hp := List.pairwise_filterMap.1 registerMap_nodup
  have : Std.Symm fun j k => ∀ x, regAt (4 * j) = some x → ∀ y, regAt (4 * k) = some y → x ≠ y :=
    ⟨fun _ _ h x hx y hy => (h y hy x hx).symm⟩
  rw [show a = 4 * (a / 4) by omega] at hra
  rw [show b = 4 * (b / 4) by omega] at hrb
  by_contra hne
  exact hp.forall (List.mem_range.2 (show a / 4 < 128 by omega))
    (List.mem_range.2 (show b / 4 < 128 by omega)) (by omega) r hra r hrb rfl

/-! ### What a register word reads, as a number -/

theorem toNat_ofBool (b : Bool) : (BitVec.ofBool b).toNat = bit b := by cases b <;> rfl

theorem Status.toWord_toNat (st : Status) :
    st.toWord.toNat = bit st.fail + bit st.ovf * 2 ^ 1 + bit st.ill * 2 ^ 2 + st.cause.toNat * 2 ^ 4 +
      bit st.sFail * 2 ^ 8 + bit st.sOvf * 2 ^ 9 + bit st.sIll * 2 ^ 10 + bit st.sBusErr * 2 ^ 11 := by
  simp only [Status.toWord, toNat_append, toNat_ofBool, BitVec.toNat_ofNat]
  omega

theorem toNat_setWidth32 {n : Nat} (h : n ≤ 32) (x : BitVec n) : (x.setWidth 32).toNat = x.toNat :=
  BitVec.toNat_setWidth_of_le h

theorem toNat_sec_lo (x : BitVec 48) : (x.extractLsb' 0 32).toNat = x.toNat % 2 ^ 32 := by
  simp

theorem toNat_sec_hi (x : BitVec 48) :
    (x.extractLsb' 32 16).toNat = x.toNat / 2 ^ 32 := by
  have := x.isLt
  rw [BitVec.extractLsb'_toNat, Nat.shiftRight_eq_div_pow]
  omega

/-- Every row of the map of R28 names a register word whose fields, at their positions, are what it reads. -/
theorem regRead_registerValues (s : State) :
    ∀ p ∈ registerValues s, ∃ r, regAt p.1 = some r ∧ (regRead r s).toNat = p.2 := by
  simp only [registerValues, List.forall_mem_append, List.forall_mem_cons, List.not_mem_nil,
    false_implies, implies_true, and_true]
  constructorm* _ ∧ _
  all_goals
    refine ⟨_, rfl, ?_⟩
    simp only [regRead, toNat_hiHalf, toNat_loHalf, toNat_sec_lo, toNat_sec_hi, Status.toWord_toNat,
      toNat_setWidth32 (show 8 ≤ 32 by decide), toNat_setWidth32 (show 16 ≤ 32 by decide),
      toNat_append, BitVec.toNat_ofNat] <;> omega

/-- Settles O44: a row of the map, a `T` half and a reserved word each say what stands at the offset. -/
theorem registerWordsReadTheirFields : Obligations.RegisterWordsReadTheirFields := by
  intro s rest a h1 h2
  refine ⟨readData a.toNat .b4 s, step_read_word h1 h2 s rest, fun p hp he => ?_, fun i hi => ?_,
    fun i hi => ?_, fun hr => ?_⟩
  · obtain ⟨r, hr, hv⟩ := regRead_registerValues s p hp
    rw [readData_of_regAt h1 (he ▸ hr), hv]
  · exact readData_of_regAt h1 (hi ▸ regAt_tSec i) ..
  · exact readData_of_regAt h1 (hi ▸ regAt_tNs i) ..
  · exact readData_of_reserved h1 (regAt_reservedWord a hr) ..

/-! ### What a write leaves in its own word (20_memory.md R35) -/

/-- The bits of a register word that a host write replaces: the field bits of a RW word. STATUS is written
otherwise (20_memory.md R37) and none of its bits are replaced. -/
def RegWord.writable : RegWord → Word
  | .wSecHi | .ctxFlags | .ctxSeq | .ctxPort | .txReqport | .txMgmt0 => 0x0000FFFF
  | .ctxCfg => 0xFFFF0F0F
  | .txAnn2 => 0x00FFFFFF
  | .txMgmt1 => 0x000FFFFF
  | .tSec _ | .tNs _ | .cmd | .uIn | .snLo | .snHi | .wSecLo | .wNs | .ctxClkidHi | .ctxClkidLo
  | .ctxCorrLo | .ctxCorrHi | .txReqclkHi | .txReqclkLo | .txAnn0 | .txAnn1 | .txGmidHi | .txGmidLo
  | .txTgtclkHi | .txTgtclkLo => 0xFFFFFFFF
  | _ => 0

theorem writableBits_eq : ∀ a : BitVec 10, 0x008 ≤ a.toNat → a.toNat < 0x200 → a.toNat % 4 = 0 →
    writableBits a.toNat = ((regAt a.toNat).map RegWord.writable).getD 0 := by
  decide +kernel

theorem overwrite_all (x v : Word) : x &&& ~~~0xFFFFFFFF ||| v &&& 0xFFFFFFFF = v := by
  rw [show (0xFFFFFFFF : Word) = BitVec.allOnes 32 from rfl, BitVec.not_allOnes, BitVec.and_zero,
    BitVec.zero_or, BitVec.and_allOnes]

theorem overwrite_none (x v : Word) : x &&& ~~~0 ||| v &&& 0 = x := by
  rw [show (0 : Word) = 0#32 from rfl, BitVec.not_zero, BitVec.and_allOnes, BitVec.and_zero, BitVec.or_zero]

theorem eq_overwrite_of_bits {u x v m : Word}
    (h : ∀ i < 32, u.getLsbD i = if m.getLsbD i then v.getLsbD i else x.getLsbD i) :
    u = x &&& ~~~m ||| v &&& m := by
  refine BitVec.eq_of_getLsbD_eq fun i hi => ?_
  rw [h i hi, BitVec.getLsbD_or, BitVec.getLsbD_and, BitVec.getLsbD_and, BitVec.getLsbD_not]
  cases m.getLsbD i <;> simp [hi]

theorem overwrite_low16 (x : BitVec 16) (v : Word) :
    (v.extractLsb' 0 16).setWidth 32 = x.setWidth 32 &&& ~~~0x0000FFFF ||| v &&& 0x0000FFFF :=
  eq_overwrite_of_bits fun i hi => by
    simp only [BitVec.getLsbD_setWidth, BitVec.getLsbD_extractLsb']
    interval_cases i <;> simp

/-- CTX_CFG: two bytes, and two nibbles with reserved bits above each. -/
theorem overwrite_ctxCfg (l d : BitVec 8) (p q : BitVec 4) (v : Word) :
    v.extractLsb' 24 8 ++ v.extractLsb' 16 8 ++ 0#4 ++ v.extractLsb' 8 4 ++ 0#4 ++ v.extractLsb' 0 4 =
      (l ++ d ++ 0#4 ++ p ++ 0#4 ++ q) &&& ~~~0xFFFF0F0F ||| v &&& 0xFFFF0F0F :=
  eq_overwrite_of_bits fun i hi => by
    simp only [BitVec.getLsbD_append, BitVec.getLsbD_extractLsb']
    interval_cases i <;> simp

/-- TX_ANN2: a byte and a half word, the top byte reserved. -/
theorem overwrite_txAnn2 (x : BitVec 8) (y : BitVec 16) (v : Word) :
    0#8 ++ v.extractLsb' 16 8 ++ v.extractLsb' 0 16 =
      (0#8 ++ x ++ y) &&& ~~~0x00FFFFFF ||| v &&& 0x00FFFFFF :=
  eq_overwrite_of_bits fun i hi => by
    simp only [BitVec.getLsbD_append, BitVec.getLsbD_extractLsb']
    interval_cases i <;> simp

/-- TX_MGMT1: a nibble and two bytes, the top 12 bits reserved. -/
theorem overwrite_txMgmt1 (x : BitVec 4) (y z : BitVec 8) (v : Word) :
    0#12 ++ v.extractLsb' 16 4 ++ v.extractLsb' 8 8 ++ v.extractLsb' 0 8 =
      (0#12 ++ x ++ y ++ z) &&& ~~~0x000FFFFF ||| v &&& 0x000FFFFF :=
  eq_overwrite_of_bits fun i hi => by
    simp only [BitVec.getLsbD_append, BitVec.getLsbD_extractLsb']
    interval_cases i <;> simp

/-- TX_ANN0: a word from its two bytes and its half word. -/
theorem bytes_append_half (v : Word) :
    v.extractLsb' 24 8 ++ v.extractLsb' 16 8 ++ v.extractLsb' 0 16 = v := by
  apply BitVec.eq_of_toNat_eq
  simp only [toNat_append, BitVec.extractLsb'_toNat, Nat.shiftRight_eq_div_pow]
  omega

/-- TX_ANN1: a word from its half word and its two bytes. -/
theorem half_append_bytes (v : Word) :
    v.extractLsb' 16 16 ++ v.extractLsb' 8 8 ++ v.extractLsb' 0 8 = v := by
  apply BitVec.eq_of_toNat_eq
  simp only [toNat_append, BitVec.extractLsb'_toNat, Nat.shiftRight_eq_div_pow]
  omega

/-- What a register word reads after the host wrote it (20_memory.md R35); STATUS is written otherwise
(R37). -/
theorem regRead_regWrite_same {r : RegWord} (h : r ≠ .status) (v : Word) (s : State) :
    regRead r (regWrite r v s) = regRead r s &&& ~~~r.writable ||| v &&& r.writable := by
  cases r with
  | status => exact absurd rfl h
  | wSecHi =>
    simp only [regRead, regWrite, RegWord.writable, wSecHigh_setHigh]
    exact overwrite_low16 ..
  | ctxFlags | ctxSeq | ctxPort | txReqport | txMgmt0 => exact overwrite_low16 ..
  | ctxCfg => exact overwrite_ctxCfg ..
  | txAnn2 => exact overwrite_txAnn2 ..
  | txMgmt1 => exact overwrite_txMgmt1 ..
  | tSec | tNs | cmd | uIn | snLo | snHi | wSecLo | wNs | ctxClkidHi | ctxClkidLo
  | ctxCorrLo | ctxCorrHi | txReqclkHi | txReqclkLo | txAnn0 | txAnn1 | txGmidHi | txGmidLo
  | txTgtclkHi | txTgtclkLo =>
    simp only [regRead, regWrite, RegWord.writable, overwrite_all, State.getT_setT_same, hiHalf_setHi,
      loHalf_setLo, wSecLow_setLow, bytes_append_half, half_append_bytes]
  | _ => exact (overwrite_none ..).symm

/-! ### What a write leaves elsewhere -/

/-- The write of a register word leaves what every other word of the region reads. -/
theorem readData_regWrite_other {a b : Nat} {r : RegWord} (ha : a < 0x200) (ha4 : a % 4 = 0)
    (hr : regAt a = some r) (hb : b < 0x200) (hb4 : b % 4 = 0) (hne : b ≠ a) (v : Word) (s : State) :
    readData b .b4 (regWrite r v s) = readData b .b4 s := by
  cases hrb : regAt b with
  | none => rw [readData_of_reserved hb hrb, readData_of_reserved hb hrb]
  | some r' =>
    have hrr : r' ≠ r := fun hc => hne (regAt_injective hb hb4 ha ha4 hrb (hc ▸ hr))
    rw [readData_of_regAt hb hrb, readData_of_regAt hb hrb, regRead_regWrite_other hrr]

theorem regWrite_sameBytes (r : RegWord) (v : Word) (s : State) : SameBytes s (regWrite r v s) := by
  obtain ⟨ho, hi, hr, -⟩ := regWrite_keeps r v s
  intro b k
  cases b with
  | obuf => exact State.byteAt_congr (b := .obuf) ho hr k
  | ibuf => exact State.byteAt_congr (b := .ibuf) hi hr k

/-- CMD and STATUS stand below offset 8. -/
theorem regAt_ne_cmd_status : ∀ a : BitVec 10, 0x008 ≤ a.toNat →
    regAt a.toNat ≠ some .cmd ∧ regAt a.toNat ≠ some .status := by decide +kernel

/-- Settles O45: a register word by `regWrite` on the state with the write answered, a reserved word by no
change. -/
theorem registerWritesSetTheirFields : Obligations.RegisterWritesSetTheirFields := by
  intro s rest a v h0 h1 h2
  have hd : ∀ b, readData b .b4 { s with pending := rest, response := some .written } =
    readData b .b4 s := fun b => readData_congr b .b4 s rest _
  have hm := writableBits_eq a h0 h1 h2
  cases hr : regAt a.toNat with
  | none =>
    refine ⟨_, step_write_reserved h1 h2 hr s rest v, ?_, fun b _ _ _ => hd b, fun _ _ => rfl, rfl, rfl⟩
    rw [hd, hm, hr]
    exact (overwrite_none ..).symm
  | some r =>
    obtain ⟨hcmd, hstatus⟩ := regAt_ne_cmd_status a h0
    rw [hr] at hcmd hstatus hm
    have hne : r ≠ .cmd := fun hc => hcmd (congrArg some hc)
    have hne' : r ≠ .status := fun hc => hstatus (congrArg some hc)
    obtain ⟨-, -, -, hp, ha, -⟩ :=
      regWrite_keeps r v { s with pending := rest, response := some .written }
    refine ⟨_, step_write_register h1 h2 hr hne s rest v, ?_, fun b hb hb4 hba => ?_,
      regWrite_sameBytes r v { s with pending := rest, response := some .written }, hp, ha⟩
    · rw [← hd, readData_of_regAt h1 hr, readData_of_regAt h1 hr, regRead_regWrite_same hne', hm]
      rfl
    · rw [readData_regWrite_other h1 h2 hr hb hb4 hba, hd]

end Sys2Proof.Machine

/-! PROOFS of the statements of 20_memory.md about what an access does: bus errors (O41), the repeat of a
legal read (O42), the windows (O46, O47), the write to STATUS (O43) and to CMD (O5), and the sticky bits
(O52). -/

namespace Sys2Proof.Machine

open Sys2Proof.Slice0

/-! ### Legal accesses (20_memory.md R33, R36) -/

theorem accessBytes_eq (n : AccessSize) : accessBytes n = n.bytes := by cases n <;> rfl

/-- An access is legal exactly when the statements do not call it a bus error. -/
theorem legalAccess_iff {a : Nat} {n : AccessSize} :
    legalAccess a n = true ↔ ¬ BusErrorAccess a n := by
  unfold legalAccess BusErrorAccess
  by_cases h : a < 0x200
  · rw [if_pos h, decide_eq_true_iff]
    simp only [h, true_and, show ¬ 0x200 ≤ a by omega, false_and, or_false, not_or, not_not]
  · rw [if_neg h, decide_eq_true_iff]
    simp only [h, false_and, false_or, show 0x200 ≤ a by omega, true_and]
    cases n <;> simp [AccessSize.bytes, Nat.mod_one]

theorem legalAccess_eq_false_iff {a : Nat} {n : AccessSize} :
    legalAccess a n = false ↔ BusErrorAccess a n := by
  rw [← Bool.not_eq_true, legalAccess_iff, not_not]

/-- An aligned access to a window is legal. -/
theorem legalAccess_window {a : Nat} {n : AccessSize} (h1 : 0x200 ≤ a) (h2 : a % n.bytes = 0) :
    legalAccess a n = true := by
  unfold legalAccess
  rw [if_neg (by omega), decide_eq_true h2]

/-- A legal read answers the data of its place and changes nothing of the unit (20_memory.md R38). -/
theorem step_read {a : BitVec 10} {n : AccessSize} (h : legalAccess a.toNat n = true) (s : State)
    (rest : List HostEvent) :
    step { s with pending := .read a n :: rest } =
      .next { s with pending := rest, response := some (.readData (readData a.toNat n s)) } := by
  rw [step_cons]
  simp only [hostEvent, hostRead, h, if_true]
  rw [show readData a.toNat n { s with pending := rest } = readData a.toNat n s from
    readData_congr a.toNat n s rest s.response]
  rfl

theorem step_read_busError {a : BitVec 10} {n : AccessSize} (h : legalAccess a.toNat n = false)
    (s : State) (rest : List HostEvent) :
    step { s with pending := .read a n :: rest } =
      .next { s with pending := rest, response := some (.readError 0),
                     status := { s.status with sBusErr := true } } := by
  rw [step_cons]
  simp only [hostEvent, hostRead, h]
  rfl

theorem step_write_busError {a : BitVec 10} {n : AccessSize} (h : legalAccess a.toNat n = false)
    (s : State) (rest : List HostEvent) (v : Word) :
    step { s with pending := .write a n v :: rest } =
      .next { s with pending := rest, response := some .writeError,
                     status := { s.status with sBusErr := true } } := by
  rw [step_cons]
  simp only [hostEvent, hostWrite, h]
  rfl

/-- Every write to a legal place is answered as completed, the write of a command word too. -/
theorem hostEvent_write_response {a : BitVec 10} {n : AccessSize} {v : Word} {s t : State}
    (hl : legalAccess a.toNat n = true) (h : hostEvent (.write a n v) s = .next t) :
    t.response = some .written := by
  rcases hostEvent_cases h with ⟨he, -⟩ | ⟨_, _, he, -⟩ | ⟨_, _, he, -⟩ | ⟨_, _, _, he, hb, -⟩ |
    ⟨w, -, hp⟩ | ⟨_, w, r, -, -, -, -, -, rfl⟩ | ⟨_, _, -, -, -, -, rfl⟩ | ⟨_, _, _, -, -, -, rfl⟩
  · cases he
  · cases he
  · cases he
  · cases he
    rw [hl] at hb
    cases hb
  · obtain ⟨u, hu, -, -, hr, -⟩ := performCommand_next w (s.respond .written)
    rw [hu] at hp
    cases hp
    exact hr
  · obtain ⟨-, -, -, -, hr, -⟩ := regWrite_keeps r w (s.respond .written)
    exact hr
  · rfl
  · exact State.setBytes_response ..

/-- Settles O42: the answer of a read is the host's side, which a read does not see. -/
theorem legalReadsHaveNoSideEffect : Obligations.LegalReadsHaveNoSideEffect := by
  intro s rest a n ha
  have hl := legalAccess_iff.2 ha
  refine ⟨readData a.toNat n s, step_read hl s _, ?_⟩
  have hagain := step_read hl { s with response := some (.readData (readData a.toNat n s)) } rest
  rw [show readData a.toNat n { s with response := some (.readData (readData a.toNat n s)) } =
    readData a.toNat n s from readData_congr a.toNat n s s.pending _] at hagain
  exact hagain

/-! ### The windows (20_memory.md R32, R36, R41) -/

theorem windowOf_windowBase (b : BufId) {off : Nat} (h : off < 256) :
    windowOf (windowBase b + off) = (b, off) := by
  cases b <;> simp [windowOf, windowBase]; omega

theorem windowBase_ge (b : BufId) : 0x200 ≤ windowBase b := by cases b <;> decide

/-- A window address is aligned when its offset is: both windows begin at a multiple of 4. -/
theorem windowBase_add_mod (b : BufId) (off : Nat) (n : AccessSize) :
    (windowBase b + off) % n.bytes = off % n.bytes := by
  cases b <;> cases n <;> simp only [windowBase, AccessSize.bytes] <;> omega

theorem step_write_window {a : BitVec 10} {n : AccessSize} (h1 : 0x200 ≤ a.toNat)
    (h2 : a.toNat % n.bytes = 0) (s : State) (rest : List HostEvent) (v : Word) :
    step { s with pending := .write a n v :: rest } =
      .next (({ s with pending := rest, response := some .written } : State).laneWrite
        (windowOf a.toNat).1 (windowOf a.toNat).2 n.bytes v.toNat) := by
  rw [step_cons]
  simp only [hostEvent, hostWrite, legalAccess_window h1 h2, if_true,
    if_neg (show ¬ a.toNat < 0x200 by omega)]
  rfl

/-- The lanes of a bus write touch the buffers and nothing else. -/
theorem State.laneWrite_frame (s : State) (b : BufId) (off n v : Nat) :
    s.laneWrite b off n v =
      { s with obuf := (s.laneWrite b off n v).obuf, ibuf := (s.laneWrite b off n v).ibuf } := by
  cases b <;> rfl

/-- The lane of byte `j` of a word is its bits `8j+7:8j`. -/
theorem ofNat_lane (v : Word) (j : Nat) :
    BitVec.ofNat 8 (v.toNat / 256 ^ j) = v.extractLsb' (8 * j) 8 := by
  apply BitVec.eq_of_toNat_eq
  rw [BitVec.toNat_ofNat, BitVec.extractLsb'_toNat, Nat.shiftRight_eq_div_pow, Nat.pow_mul]

/-- The data of a window read is the number in its lanes; no byte of it is cut off. -/
theorem readData_window_toNat {a : Nat} (h : 0x200 ≤ a) (n : AccessSize) (s : State) :
    (readData a n s).toNat = s.laneRead (windowOf a).1 (windowOf a).2 n.bytes := by
  have hlt := s.laneRead_lt (windowOf a).1 n.bytes (windowOf a).2
  have hle : 256 ^ n.bytes ≤ 2 ^ 32 := by cases n <;> decide
  unfold readData
  rw [if_neg (by omega), BitVec.toNat_ofNat, Nat.mod_eq_of_lt (by omega)]

/-- Settles O46: the lanes of the write and, on the state it leaves, the lanes of the read. -/
theorem windowAccessesMoveTheirBytes : Obligations.WindowAccessesMoveTheirBytes := by
  intro s rest b off n v a hoff halign ha
  rw [accessBytes_eq] at *
  have hge : 0x200 ≤ a.toNat := by have := windowBase_ge b; omega
  have hmod : a.toNat % n.bytes = 0 := by rw [ha, windowBase_add_mod, halign]
  have hwin : windowOf a.toNat = (b, off) := by rw [ha, windowOf_windowBase b hoff]
  have hw := step_write_window hge hmod s rest v
  rw [hwin] at hw
  set s' : State := { s with pending := rest, response := some .written }
  set t := s'.laneWrite b off n.bytes v.toNat
  have hd : (readData a.toNat n t).toNat = t.laneRead b off n.bytes := by
    rw [readData_window_toNat hge, hwin]
  refine ⟨t, readData a.toNat n t, hw, State.laneWrite_frame .., fun j hj => ?_, fun c m hc => ?_,
    step_read (legalAccess_window hge hmod) t rest, fun j hj => ?_, ?_⟩
  · rw [State.byteAt_laneWrite, if_pos ⟨rfl, by omega, by omega⟩, Nat.add_sub_cancel_left, ofNat_lane]
  · rw [State.byteAt_laneWrite, if_neg hc]
    rfl
  · rw [← ofNat_lane, hd]
    apply BitVec.eq_of_toNat_eq
    rw [BitVec.toNat_ofNat, State.laneRead_byte t b hj]
  · rw [hd]
    exact State.laneRead_lt ..

/-- Settles O47: the four lanes of a 4-byte read. -/
theorem bufferWordsReadLittleEndian : Obligations.BufferWordsReadLittleEndian := by
  intro s rest j hj
  have ha : (BitVec.ofNat 10 (0x200 + 4 * j)).toNat = windowBase .obuf + 4 * j := by
    rw [BitVec.toNat_ofNat, windowBase]
    omega
  generalize BitVec.ofNat 10 (0x200 + 4 * j) = a at ha ⊢
  have hge : 0x200 ≤ a.toNat := by have := windowBase_ge .obuf; omega
  have hmod : a.toNat % AccessSize.b4.bytes = 0 := by
    rw [ha, windowBase_add_mod, AccessSize.bytes]
    omega
  refine ⟨readData a.toNat .b4 s, step_read (legalAccess_window hge hmod) s rest, ?_⟩
  rw [readData_window_toNat hge, ha, windowOf_windowBase _ (by omega)]
  simp only [AccessSize.bytes, State.laneRead, Nat.add_assoc, Nat.reduceAdd]
  omega

/-! ### The writes to CMD and to STATUS (20_memory.md R37, R38) -/

/-- Settles O5: the write of a command's word to CMD performs the command. -/
theorem stepPerformsTheDecodedCommand : Obligations.StepPerformsTheDecodedCommand := by
  intro s rest v i h
  rw [step_command, performCommand_command h]

/-- A write to STATUS as a word: the sticky bits written 1 fall (20_memory.md R37). -/
theorem Status.toWord_clearSticky (st : Status) (v : Word) :
    (st.clearSticky v).toWord = st.toWord &&& ~~~(v &&& 0x00000F00) := by
  refine BitVec.eq_of_getLsbD_eq fun i hi => ?_
  simp only [Status.toWord, Status.clearSticky, BitVec.getLsbD_append, BitVec.getLsbD_and,
    BitVec.getLsbD_not]
  interval_cases i <;> simp

theorem step_write_status (s : State) (rest : List HostEvent) (v : Word) :
    step { s with pending := .write 0x004 .b4 v :: rest } =
      .next (regWrite .status v { s with pending := rest, response := some .written }) :=
  step_write_register (by decide) (by decide) rfl (by decide) s rest v

/-- Settles O43: STATUS is one of the register words, and its write touches STATUS alone. -/
theorem statusWriteClearsStickyBits : Obligations.StatusWriteClearsStickyBits := fun s rest v =>
  ⟨_, step_write_status s rest v, rfl, s.status.toWord_clearSticky v,
    regWrite_sameBytes .status v { s with pending := rest, response := some .written }⟩

/-! ### STATUS under an interaction (60_exceptions.md R113, 20_memory.md R37) -/

/-- What a command word, legal or not, can leave in STATUS. -/
theorem performCommand_status {v : Word} {s t : State} (h : performCommand v s = .next t) :
    t.status = s.status.beginCommand ∨ (∃ c, t.status = s.status.beginCommand.illegal c) ∨
      (∃ c, t.status = s.status.beginCommand.failed c) ∨
      ∃ c, t.status = s.status.beginCommand.overflowed c := by
  rcases performCommand_cases h with ⟨i, -, hx⟩ | ⟨why, -, rfl⟩
  · rcases exec_status hx with h | h | h | h | h
    · exact .inl h
    · exact .inr (.inr (.inl ⟨_, h⟩))
    · exact .inr (.inr (.inl ⟨_, h⟩))
    · exact .inr (.inr (.inl ⟨_, h⟩))
    · exact .inr (.inr (.inr ⟨_, h⟩))
  · exact .inr (.inl ⟨_, rfl⟩)

/-- Everything an interaction can do to STATUS. -/
theorem hostEvent_status {e : HostEvent} {s t : State} (h : hostEvent e s = .next t) :
    e = .reset ∨ t.status = s.status ∨
    ((∃ a n, (e = .read a n ∨ ∃ v, e = .write a n v) ∧ legalAccess a.toNat n = false) ∧
      t.status = { s.status with sBusErr := true }) ∨
    (∃ v, e = .write 0x004 .b4 v ∧ t.status = s.status.clearSticky v) ∨
    ∃ v, performCommand v (s.respond .written) = .next t := by
  rcases hostEvent_cases h with ⟨rfl, -⟩ | ⟨_, _, -, -, rfl⟩ | ⟨a, n, he, hl, rfl⟩ |
    ⟨a, n, v, he, hl, rfl⟩ | ⟨v, rfl, hp⟩ | ⟨a, v, r, rfl, h1, h2, hr, -, rfl⟩ |
    ⟨_, _, -, -, -, -, rfl⟩ | ⟨_, _, _, -, -, -, rfl⟩
  · exact .inl rfl
  · exact .inr (.inl rfl)
  · exact .inr (.inr (.inl ⟨⟨a, n, .inl he, hl⟩, rfl⟩))
  · exact .inr (.inr (.inl ⟨⟨a, n, .inr ⟨v, he⟩, hl⟩, rfl⟩))
  · exact .inr (.inr (.inr (.inr ⟨v, hp⟩)))
  · by_cases hst : r = .status
    · subst hst
      have h4 : a.toNat = 4 := regAt_injective h1 h2 (by decide) (by decide) hr rfl
      exact .inr (.inr (.inr (.inl ⟨v, by rw [BitVec.eq_of_toNat_eq h4 (y := 0x004)], rfl⟩)))
    · exact .inr (.inl (regWrite_status hst v _))
  · exact .inr (.inl rfl)
  · exact .inr (.inl (State.setBytes_status ..))

/-- A command word leaves S_BUSERR. -/
theorem performCommand_sBusErr {v : Word} {s t : State} (h : performCommand v s = .next t) :
    t.status.sBusErr = s.status.sBusErr := by
  rcases performCommand_status h with h | ⟨_, h⟩ | ⟨_, h⟩ | ⟨_, h⟩ <;> rw [h] <;> rfl

/-- A legal write leaves S_BUSERR, or to STATUS clears it when written 1 (20_memory.md R37). -/
theorem hostEvent_write_sBusErr {a : BitVec 10} {n : AccessSize} {v : Word} {s t : State}
    (hl : legalAccess a.toNat n = true) (h : hostEvent (.write a n v) s = .next t) :
    t.status.sBusErr = (s.status.sBusErr && !(decide (a = 0x004) && v.getLsbD 11)) := by
  by_cases ha : a = 0x004
  · subst ha
    obtain rfl : n = .b4 := by
      cases n with
      | b4 => rfl
      | b1 | b2 => cases hl
    cases h
    simp [regWrite, Status.clearSticky]
  · rw [decide_eq_false ha, Bool.false_and, Bool.not_false, Bool.and_true]
    rcases hostEvent_status h with he | h | ⟨⟨_, _, he, hb⟩, -⟩ | ⟨_, he, -⟩ | ⟨_, hp⟩
    · cases he
    · rw [h]
    · rcases he with he | ⟨_, he⟩
      · cases he
      · cases he
        rw [hl] at hb
        cases hb
    · cases he
      exact absurd rfl ha
    · exact (performCommand_sBusErr hp :)

/-- Settles O41: both bus errors by what they record, every other access by its answer and what it leaves of
S_BUSERR. -/
theorem busErrorsChangeOnlyTheirBit : Obligations.BusErrorsChangeOnlyTheirBit := by
  intro s rest a n v
  refine ⟨fun hb => ?_, fun hb => ⟨?_, ?_⟩⟩
  · have hl := legalAccess_eq_false_iff.2 hb
    exact ⟨step_read_busError hl s rest, step_write_busError hl s rest v⟩
  · have hl := legalAccess_iff.2 hb
    obtain ⟨t, ht, -⟩ := hostEvent_next (.write a n v) { s with pending := rest }
    exact ⟨t, ht, hostEvent_write_response hl ht, (hostEvent_write_sBusErr hl ht :)⟩
  · exact ⟨_, _, step_read (legalAccess_iff.2 hb) s rest, rfl, rfl⟩

/-! ### The sticky bits -/

/-- Every sticky bit that is 1 stays 1. -/
def Status.KeepsSticky (st st' : Status) : Prop :=
  (st.sFail = true → st'.sFail = true) ∧ (st.sOvf = true → st'.sOvf = true) ∧
    (st.sIll = true → st'.sIll = true) ∧ (st.sBusErr = true → st'.sBusErr = true)

theorem Status.KeepsSticky.toWord {st st' : Status} (h : st.KeepsSticky st') {k : Nat} (h8 : 8 ≤ k)
    (h11 : k ≤ 11) (hk : st.toWord.getLsbD k = true) : st'.toWord.getLsbD k = true := by
  obtain ⟨hf, ho, hi, hb⟩ := h
  obtain ⟨e8, e9, e10, e11⟩ := st.toWord_sticky
  obtain ⟨e8', e9', e10', e11'⟩ := st'.toWord_sticky
  interval_cases k
  · rw [e8']; exact hf (e8 ▸ hk)
  · rw [e9']; exact ho (e9 ▸ hk)
  · rw [e10']; exact hi (e10 ▸ hk)
  · rw [e11']; exact hb (e11 ▸ hk)

/-- A command word only ever sets sticky bits (60_exceptions.md R113). -/
theorem performCommand_keepsSticky {v : Word} {s t : State} (h : performCommand v s = .next t) :
    s.status.KeepsSticky t.status := by
  rcases performCommand_status h with h | ⟨_, h⟩ | ⟨_, h⟩ | ⟨_, h⟩ <;> rw [h]
  · exact ⟨id, id, id, id⟩
  · exact ⟨id, id, fun _ => rfl, id⟩
  · exact ⟨fun _ => rfl, id, id, id⟩
  · exact ⟨id, fun _ => rfl, id, id⟩

/-- An interaction keeps every sticky bit, or it is a reset or a write to STATUS. -/
theorem hostEvent_keepsSticky {e : HostEvent} {s t : State} (h : hostEvent e s = .next t) :
    e = .reset ∨ (∃ v, e = .write 0x004 .b4 v ∧ t.status = s.status.clearSticky v) ∨
      s.status.KeepsSticky t.status := by
  rcases hostEvent_status h with he | h | ⟨-, h⟩ | hw | ⟨_, hp⟩
  · exact .inl he
  · exact .inr (.inr (h ▸ ⟨id, id, id, id⟩))
  · exact .inr (.inr (h ▸ ⟨id, id, id, fun _ => rfl⟩))
  · exact .inr (.inl hw)
  · exact .inr (.inr (performCommand_keepsSticky hp :))

/-- Settles O52: of what does not keep the sticky bits, a write to STATUS clears only those written 1. -/
theorem stickyBitsClearOnlyByHost : Obligations.StickyBitsClearOnlyByHost := by
  intro s t e rest k h8 h11 hp hs h1 h0
  rw [step_of_pending hp] at hs
  rcases hostEvent_keepsSticky hs with he | ⟨v, he, hst⟩ | hk
  · exact .inl he
  · refine .inr ⟨v, he, ?_⟩
    rw [hst, Status.toWord_clearSticky] at h0
    simp only [BitVec.getLsbD_and, BitVec.getLsbD_not, h1] at h0
    interval_cases k <;> simpa using h0
  · rw [hk.toWord h8 h11 h1] at h0
    cases h0

end Sys2Proof.Machine

/-! PROOFS of the statements of 20_memory.md about the buffer bytes: who writes them (O50) and which of them
the parser reads (O38). -/

namespace Sys2Proof.Machine

open Sys2Proof.Slice0

/-! ### The writers of a buffer byte (42_framer_pack.md R96, 20_memory.md R36) -/

/-- A PACK command writes a message whose fields fill it from offset 0 to its length of the table. -/
theorem exec_pack : ∀ p ∈ packTable, ∀ s : State, ∃ fs, Chain 0 fs p.2.2.1 ∧
    exec p.1 s = .next (s.beginCommand.writeFields fs) := by
  have hts := packTimestamped_chain
  simp only [packTable, List.forall_mem_cons, List.not_mem_nil, false_implies, implies_true, and_true]
  refine ⟨fun s => ⟨_, hts .., rfl⟩, fun s => ⟨_, hts .., rfl⟩,
    fun s => ⟨_, (hts ..).append (show Chain 44 [⟨44, 10, 0⟩] 54 from ⟨rfl, rfl⟩), rfl⟩,
    fun s => ⟨_, (hts ..).append (packPortId_chain ..), rfl⟩, fun s => ⟨_, hts .., rfl⟩,
    fun s => ⟨_, (hts ..).append (packPortId_chain ..), rfl⟩,
    fun s => ⟨_, (hts ..).append (packPortId_chain ..), rfl⟩,
    fun s => ⟨_, (hts ..).append (packAnnounceBody_chain _), rfl⟩,
    fun s => ⟨_, ((packHeader_chain ..).append (packPortId_chain ..)).append
      (packManagementBody_chain _), rfl⟩⟩

/-- A command that changes what a buffer byte reads as is a PACK command, and the byte lies in its message. -/
theorem exec_byteAt_ne {i : Instr} {s t : State} (h : exec i s = .next t) {b : BufId} {off : Nat}
    (hne : t.byteAt b off ≠ s.byteAt b off) :
    b = .obuf ∧ ∃ p ∈ packTable, p.1 = i ∧ off < p.2.2.1 := by
  obtain ⟨hi, -, -, -, hr, -⟩ := exec_keeps h
  cases b with
  | ibuf => exact absurd (State.byteAt_congr (b := .ibuf) hi hr off) hne
  | obuf =>
    obtain ⟨-, -, -, -, -, -, -, ho⟩ := (exec_frame h).changes
    obtain ⟨p, hp, rfl⟩ := of_destinationOf_obuf
      (ho fun hc => hne (State.byteAt_congr (b := .obuf) hc hr off))
    obtain ⟨fs, hfs, hx⟩ := exec_pack p hp s
    rw [hx] at h
    cases h
    refine ⟨rfl, p, hp, rfl, Nat.lt_of_not_le fun hle => hne ?_⟩
    exact State.writeFields_byteAt_outside hfs _ (.inr hle)

/-- A window's base and the offset in it give the address back. -/
theorem windowBase_windowOf {a : Nat} (h : 0x200 ≤ a) :
    windowBase (windowOf a).1 + (windowOf a).2 = a := by
  unfold windowOf
  split <;> simp only [windowBase] <;> omega

/-- Settles O50: of the cases of an interaction only a reset, a command and a window write change a byte. -/
theorem bufferBytesChangeOnlyByTheirWriters : Obligations.BufferBytesChangeOnlyByTheirWriters := by
  intro s t e rest b off hp hs hne
  rw [step_of_pending hp] at hs
  rcases hostEvent_cases hs with ⟨he, -⟩ | ⟨_, _, -, -, rfl⟩ | ⟨_, _, -, -, rfl⟩ |
    ⟨_, _, _, -, -, rfl⟩ | ⟨v, he, hc⟩ | ⟨_, v, r, -, -, -, -, -, rfl⟩ | ⟨_, _, -, -, -, -, rfl⟩ |
    ⟨a, n, v, he, h1, h2, rfl⟩
  · exact .inl he
  · exact absurd rfl hne
  · exact absurd rfl hne
  · exact absurd rfl hne
  · rcases performCommand_cases hc with ⟨i, hd, hx⟩ | ⟨_, -, rfl⟩
    · obtain ⟨hb, p, hpt, rfl, hlt⟩ := exec_byteAt_ne hx hne
      exact .inr (.inr ⟨hb, p, hpt, by rw [he, encode_of_decode hd], hlt⟩)
    · exact absurd rfl hne
  · exact absurd (regWrite_sameBytes r v _ b off) hne
  · exact absurd rfl hne
  · rw [State.byteAt_laneWrite] at hne
    split at hne
    · next hcov =>
      obtain ⟨rfl, hlo, hhi⟩ := hcov
      have hb := windowBase_windowOf h1
      refine .inr (.inl ⟨a, n, v, he, legalAccess_iff.1 (legalAccess_window h1 h2), ?_⟩)
      rw [List.mem_range'_1, accessBytes_eq]
      omega
    · exact absurd rfl hne

/-! ### What the parser reads (20_memory.md R44, 43_framer_unpack.md R97) -/

section
variable {s s' : State} (h : ∀ off, off < 64 → s.byteAt .ibuf off = s'.byteAt .ibuf off)
include h

/-- A field within the first 64 bytes is the same number in two states that agree on them. -/
theorem ibufField_of_first64 {off n w : Nat} (hn : off + n ≤ 64) :
    s.ibufField off n w = s'.ibufField off n w :=
  State.ibufField_congr fun k _ hk => h k (by omega)

theorem unpackHeader_of_first64 : s.unpackHeader = s'.unpackHeader := by
  simp (disch := decide) only [State.unpackHeader, ibufField_of_first64 h]

theorem unpackTs_of_first64 {o : Nat} (ho : o + 10 ≤ 64) (r : Rx) :
    s.unpackTs o r = s'.unpackTs o r := by
  simp (disch := omega) only [State.unpackTs, ibufField_of_first64 h]

theorem unpackReqId_of_first64 {o : Nat} (ho : o + 10 ≤ 64) (r : Rx) :
    s.unpackReqId o r = s'.unpackReqId o r := by
  simp (disch := omega) only [State.unpackReqId, ibufField_of_first64 h]

theorem unpackAnnounceBody_of_first64 (r : Rx) :
    s.unpackAnnounceBody r = s'.unpackAnnounceBody r := by
  simp (disch := decide) only [State.unpackAnnounceBody, ibufField_of_first64 h]

theorem unpackManagementBody_of_first64 (r : Rx) :
    s.unpackManagementBody r = s'.unpackManagementBody r := by
  simp (disch := decide) only [State.unpackManagementBody, ibufField_of_first64 h]

end

/-- Settles O38: the record a command writes is a function of the old one and of fields that end within the
first 64 bytes; the other record it leaves. -/
theorem unpackReadsOnlyFirst64Bytes : Obligations.UnpackReadsOnlyFirst64Bytes := by
  intro i hi s s' hrx hrxh hb
  have hts := unpackTs_of_first64 hb (o := 34) (by decide) s'.rx
  have hid := unpackReqId_of_first64 hb (o := 44) (by decide)
  simp only [unpackCommands, List.mem_cons, List.not_mem_nil, or_false] at hi
  rcases hi with rfl | rfl | rfl | rfl | rfl | rfl | rfl | rfl | rfl | rfl
  case inl => exact ⟨_, _, rfl, rfl, hrx, unpackHeader_of_first64 hb⟩
  all_goals refine ⟨_, _, rfl, rfl, ?_, hrxh⟩
  all_goals simp only [hrx, hts, hid, unpackAnnounceBody_of_first64 hb, unpackManagementBody_of_first64 hb]

end Sys2Proof.Machine

/-! PROOFS of the statements of 30_encoding.md: decode and encode agree (O1, O4), and the decoder, which tests
fields one by one, agrees with the mask table on the words it accepts (O2) and on the causes of the others
(O3). -/

namespace Sys2Proof

/-! ### A field is 0 when the word has no bit of its mask (30_encoding.md R49) -/

/-- The mask of the `n` bits from bit `s` up. -/
def fieldMask (s n : Nat) : Word := (BitVec.allOnes n).setWidth 32 <<< s

theorem getLsbD_fieldMask (s n k : Nat) :
    (fieldMask s n).getLsbD k = (decide (k < 32) && decide (s ≤ k) && decide (k < s + n)) := by
  simp only [fieldMask, BitVec.getLsbD_shiftLeft, BitVec.getLsbD_setWidth, BitVec.getLsbD_allOnes]
  grind

theorem extractLsb'_eq_zero_iff (v : Word) (s n : Nat) :
    v.extractLsb' s n = 0 ↔ v &&& fieldMask s n = 0 := by
  constructor <;> intro h <;> refine BitVec.eq_of_getLsbD_eq fun k hk => ?_
  · have hbit := congrArg (BitVec.getLsbD · (k - s)) h
    simp only [BitVec.getLsbD_extractLsb', BitVec.getLsbD_and, getLsbD_fieldMask] at hbit ⊢
    grind
  · have hbit := congrArg (BitVec.getLsbD · (s + k)) h
    simp only [BitVec.getLsbD_extractLsb', BitVec.getLsbD_and, getLsbD_fieldMask] at hbit ⊢
    grind

theorem rdOf_eq_zero_iff (v : Word) : rdOf v = 0 ↔ v &&& 0x00000700 = 0 :=
  extractLsb'_eq_zero_iff v 8 3
theorem rs1Of_eq_zero_iff (v : Word) : rs1Of v = 0 ↔ v &&& 0x00003800 = 0 :=
  extractLsb'_eq_zero_iff v 11 3
theorem rs2Of_eq_zero_iff (v : Word) : rs2Of v = 0 ↔ v &&& 0x0001C000 = 0 :=
  extractLsb'_eq_zero_iff v 14 3
theorem selOf_eq_zero_iff (v : Word) : selOf v = 0 ↔ v &&& 0x00020000 = 0 :=
  extractLsb'_eq_zero_iff v 17 1
theorem resOf_eq_zero_iff (v : Word) : resOf v = 0 ↔ v &&& 0xFFFC0000 = 0 :=
  extractLsb'_eq_zero_iff v 18 14

theorem and_eq_zero_and_iff (v a b : Word) : v &&& a = 0 ∧ v &&& b = 0 ↔ v &&& (a ||| b) = 0 := by
  rw [BitVec.and_or_distrib_left]
  exact BitVec.or_eq_zero_iff.symm

/-- The mask of fixed bits that 30_encoding.md R51 gives for a format. -/
def Format.mask : Format → Word
  | .z => 0xFFFFFFFF
  | .r2 => 0xFFFFC0FF
  | .r3 => 0xFFFE00FF
  | .s1 => 0xFFFFC7FF
  | .s1s => 0xFFFDC7FF
  | .d1s => 0xFFFDF8FF

/-- The fields a format leaves unused are bits 17 to 8 of its mask. -/
theorem Format.unusedAreZero_iff (f : Format) (v : Word) :
    f.unusedAreZero v = true ↔ v &&& f.mask &&& 0x0003FF00 = 0 := by
  cases f <;>
    simp only [Format.unusedAreZero, Bool.and_eq_true, beq_iff_eq, rdOf_eq_zero_iff,
      rs1Of_eq_zero_iff, rs2Of_eq_zero_iff, selOf_eq_zero_iff, and_eq_zero_and_iff,
      BitVec.and_assoc] <;>
    rfl

/-! ### The rows of an opcode (30_encoding.md R51, R53) -/

/-- The masks of the table's rows that have the word's opcode. -/
def rowMasks (v : Word) : List Word :=
  (encodingTable.filter fun r => v &&& 0x000000FF == r.pattern).map (·.mask)

/-- The word with this opcode and all other fields 0. -/
def opcodeWord (o : BitVec 8) : Word := o.setWidth 32

theorem opcOf_opcodeWord (o : BitVec 8) : opcOf (opcodeWord o) = o := by
  refine BitVec.eq_of_getLsbD_eq fun k hk => ?_
  simp only [opcOf, opcodeWord, BitVec.getLsbD_extractLsb', BitVec.getLsbD_setWidth, Nat.zero_add]
  grind

theorem and_opcodeMask (v : Word) : v &&& 0x000000FF = opcodeWord (opcOf v) := by
  change v &&& fieldMask 0 8 = _
  refine BitVec.eq_of_getLsbD_eq fun k hk => ?_
  simp only [opcodeWord, opcOf, BitVec.getLsbD_and, getLsbD_fieldMask, BitVec.getLsbD_setWidth,
    BitVec.getLsbD_extractLsb', Nat.zero_add]
  grind

/-- A word's format depends on its opcode alone. -/
theorem format_opcodeWord (v : Word) :
    (opcodeMap (opcodeWord (opcOf v))).map Prod.fst = (opcodeMap v).map Prod.fst := by
  simp only [opcodeMap, opcOf_opcodeWord]
  split <;> rfl

theorem rowMasks_opcodeWord (v : Word) : rowMasks (opcodeWord (opcOf v)) = rowMasks v := by
  simp only [rowMasks, and_opcodeMask, opcOf_opcodeWord]

/-- The table and the map agree on each of the 256 opcodes. -/
theorem rowMasks_eq_format_of_opcode : ∀ o : BitVec 8, rowMasks (opcodeWord o) =
    (((opcodeMap (opcodeWord o)).map Prod.fst).map Format.mask).toList := by decide +kernel

/-- An opcode of the map has one row, with the mask of its format; a reserved opcode has none. -/
theorem rowMasks_eq (v : Word) :
    rowMasks v = (((opcodeMap v).map Prod.fst).map Format.mask).toList := by
  rw [← rowMasks_opcodeWord, rowMasks_eq_format_of_opcode, format_opcodeWord]

/-! ### The checks of the table, as facts about the rows of the word's opcode -/

theorem opcodeDefined_iff (v : Word) : opcodeDefined v = true ↔ rowMasks v ≠ [] := by
  simp [opcodeDefined, rowMasks]

theorem reservedZero_iff (v : Word) : reservedZero v = true ↔ resOf v = 0 := by
  rw [resOf_eq_zero_iff, reservedZero, beq_iff_eq]

theorem unusedZero_iff (v : Word) :
    unusedZero v = true ↔ ∀ m ∈ rowMasks v, v &&& m &&& 0x0003FF00 = 0 := by
  simp only [unusedZero, rowMasks, List.all_eq_true, List.forall_mem_map, List.mem_filter]
  grind

/-- A word equals a pattern of opcode bits when its opcode does and its other bits are 0. -/
theorem eq_opcode_pattern_iff {x p : Word} (hp : p &&& 0x000000FF = p) :
    x = p ↔ x &&& 0x000000FF = p ∧ x &&& 0xFFFC0000 = 0 ∧ x &&& 0x0003FF00 = 0 := by
  rw [and_eq_zero_and_iff]
  constructor
  · rintro rfl
    refine ⟨hp, ?_⟩
    rw [← hp, BitVec.and_assoc]
    exact BitVec.and_zero
  · rintro ⟨hlow, hhigh⟩
    calc x = x &&& (0x000000FF ||| (0xFFFC0000 ||| 0x0003FF00)) := BitVec.and_allOnes.symm
      _ = p := by rw [BitVec.and_or_distrib_left, hlow, hhigh]; exact BitVec.or_zero

/-- Every row fixes the opcode and RES, and its fixed bits beside the opcode are 0. -/
theorem row_fixes_opcode_and_res : ∀ r ∈ encodingTable, r.mask &&& 0x000000FF = 0x000000FF ∧
    r.mask &&& 0xFFFC0000 = 0xFFFC0000 ∧ r.pattern &&& 0x000000FF = r.pattern := by decide

theorem row_match_iff {r : EncodingRow} (hr : r ∈ encodingTable) (v : Word) :
    v &&& r.mask = r.pattern ↔
      v &&& 0x000000FF = r.pattern ∧ resOf v = 0 ∧ v &&& r.mask &&& 0x0003FF00 = 0 := by
  obtain ⟨hopc, hres, hpat⟩ := row_fixes_opcode_and_res r hr
  rw [eq_opcode_pattern_iff hpat, BitVec.and_assoc v r.mask 0x000000FF,
    BitVec.and_assoc v r.mask 0xFFFC0000, hopc, hres, resOf_eq_zero_iff]

theorem matchesRow_iff (v : Word) :
    matchesRow v = true ↔ resOf v = 0 ∧ ∃ m ∈ rowMasks v, v &&& m &&& 0x0003FF00 = 0 := by
  simp only [matchesRow, rowMasks, List.any_eq_true, beq_iff_eq, List.mem_map, List.mem_filter]
  constructor
  · rintro ⟨r, hr, h⟩
    obtain ⟨hopc, hres, hun⟩ := (row_match_iff hr v).1 h
    exact ⟨hres, _, ⟨r, ⟨hr, hopc⟩, rfl⟩, hun⟩
  · rintro ⟨hres, _, ⟨r, ⟨hr, hopc⟩, rfl⟩, hun⟩
    exact ⟨r, hr, (row_match_iff hr v).2 ⟨hopc, hres, hun⟩⟩

/-! ### The decoder by the opcode map (30_encoding.md R50) -/

section
variable {v : Word}

theorem checks_of_opcodeMap_none (h : opcodeMap v = none) :
    decode v = .illegal .reservedOpcode ∧ opcodeDefined v = false ∧ matchesRow v = false := by
  have hrows : rowMasks v = [] := by rw [rowMasks_eq, h]; rfl
  refine ⟨by simp [decode, h], ?_, ?_⟩
  · simp [← Bool.not_eq_true, opcodeDefined_iff, hrows]
  · simp [← Bool.not_eq_true, matchesRow_iff, hrows]

theorem checks_of_opcodeMap_some {f : Format} {i : Instr} (h : opcodeMap v = some (f, i)) :
    decode v = (if reservedZero v && unusedZero v then .command i else .illegal .nonzeroField) ∧
      opcodeDefined v = true ∧ matchesRow v = (reservedZero v && unusedZero v) := by
  have hrows : rowMasks v = [f.mask] := by rw [rowMasks_eq, h]; rfl
  have hres : (resOf v == 0) = reservedZero v := by
    rw [Bool.eq_iff_iff, beq_iff_eq, reservedZero_iff]
  have hun : f.unusedAreZero v = unusedZero v := by
    rw [Bool.eq_iff_iff, f.unusedAreZero_iff, unusedZero_iff, hrows, List.forall_mem_singleton]
  refine ⟨by simp only [decode, h, hres, hun], ?_, ?_⟩
  · simp [opcodeDefined_iff, hrows]
  · rw [Bool.eq_iff_iff, Bool.and_eq_true, matchesRow_iff, reservedZero_iff, unusedZero_iff, hrows,
      List.forall_mem_singleton]
    simp only [List.mem_singleton, exists_eq_left]

end

/-! ### Decode of encode -/

open Laws in
theorem encodesOneTableRow (i : Instr) : EncodesOneTableRow.Statement i :=
  match i with
  | .nop => EncodesOneTableRow.nop
  | .norm rd rs1 => EncodesOneTableRow.norm rd rs1
  | .add rd rs1 rs2 => EncodesOneTableRow.add rd rs1 rs2
  | .sub rd rs1 rs2 => EncodesOneTableRow.sub rd rs1 rs2
  | .halve rd rs1 => EncodesOneTableRow.halve rd rs1
  | .flog2 => EncodesOneTableRow.flog2
  | .int2wire rs1 => EncodesOneTableRow.int2wire rs1
  | .wire2int rd src => EncodesOneTableRow.wire2int rd src
  | .sn2int rd src => EncodesOneTableRow.sn2int rd src
  | .int2sn rs1 dst => EncodesOneTableRow.int2sn rs1 dst
  | .packSync => EncodesOneTableRow.packSync
  | .packDelayReq => EncodesOneTableRow.packDelayReq
  | .packPdelayReq => EncodesOneTableRow.packPdelayReq
  | .packPdelayResp => EncodesOneTableRow.packPdelayResp
  | .packFollowUp => EncodesOneTableRow.packFollowUp
  | .packDelayResp => EncodesOneTableRow.packDelayResp
  | .packPdelayRespFu => EncodesOneTableRow.packPdelayRespFu
  | .packAnnounce => EncodesOneTableRow.packAnnounce
  | .packManagement => EncodesOneTableRow.packManagement
  | .unpackSync => EncodesOneTableRow.unpackSync
  | .unpackDelayReq => EncodesOneTableRow.unpackDelayReq
  | .unpackPdelayReq => EncodesOneTableRow.unpackPdelayReq
  | .unpackPdelayResp => EncodesOneTableRow.unpackPdelayResp
  | .unpackFollowUp => EncodesOneTableRow.unpackFollowUp
  | .unpackDelayResp => EncodesOneTableRow.unpackDelayResp
  | .unpackPdelayRespFu => EncodesOneTableRow.unpackPdelayRespFu
  | .unpackAnnounce => EncodesOneTableRow.unpackAnnounce
  | .unpackManagement => EncodesOneTableRow.unpackManagement
  | .unpackHdr => EncodesOneTableRow.unpackHdr

/-- The encoder's word has its command's opcode and passes the field checks. -/
@[simp] theorem decode_encode (i : Instr) : decode (encode i) = .command i := by
  obtain ⟨-, hrow, hmap⟩ := encodesOneTableRow i
  obtain ⟨⟨f, j⟩, hfj, rfl⟩ := Option.map_eq_some_iff.1 hmap
  obtain ⟨hdec, -, hmatch⟩ := checks_of_opcodeMap_some hfj
  rw [hdec, ← hmatch, hrow, if_pos rfl]

/-! ### The statements -/

/-- Settles O1: the encoder's word decodes to its command, and a word that decodes to a command is the one the
encoder gives. -/
theorem commandsDecodeFromTheirOneWord : Obligations.CommandsDecodeFromTheirOneWord := by
  intro v i
  constructor
  · exact encode_of_decode
  · rintro rfl
    exact decode_encode i

/-- Settles O2: a reserved opcode has no row; a defined one has one, which the word matches when RES and the
unused fields are 0. -/
theorem decoderAcceptsExactlyTheTable : Obligations.DecoderAcceptsExactlyTheTable := by
  intro v
  cases h : opcodeMap v with
  | none =>
    obtain ⟨hdec, -, hmatch⟩ := checks_of_opcodeMap_none h
    simp [hdec, hmatch]
  | some p =>
    obtain ⟨hdec, -, hmatch⟩ := checks_of_opcodeMap_some h
    cases hok : reservedZero v && unusedZero v <;> simp [hdec, hmatch, hok]

/-- Settles O3: the map of the opcode decides between the causes before any field is read. -/
theorem illegalCausesTestOpcodeFirst : Obligations.IllegalCausesTestOpcodeFirst := by
  intro v
  cases h : opcodeMap v with
  | none =>
    obtain ⟨hdec, hopc, -⟩ := checks_of_opcodeMap_none h
    simp [hdec, hopc]
  | some p =>
    obtain ⟨hdec, hopc, -⟩ := checks_of_opcodeMap_some h
    cases hr : reservedZero v <;> cases hu : unusedZero v <;> simp [hdec, hopc, hr, hu]

/-- Settles O4: each word is its command's encoding. -/
theorem writtenWordsDecode : Obligations.WrittenWordsDecode := by
  simp only [Obligations.WrittenWordsDecode, commandsDecodeFromTheirOneWord _ _]
  decide

end Sys2Proof

/-! PROOFS of the statements of 40_time_arith.md: the results of NOP (O13), of NORM, ADD and SUB (O14 to
O16), of HALVE (O17) and of FLOG2 (O18), and what the spec infers of them (O20, O21). -/

namespace Sys2Proof

/-! ### The one word of a command as a number (30_encoding.md R49) -/

theorem wordOf_eq_ofNat (opc : BitVec 8) (rd rs1 rs2 : BitVec 3) (sel : BitVec 1) :
    wordOf opc rd rs1 rs2 sel = BitVec.ofNat 32 (opc.toNat + rd.toNat * 2 ^ 8 + rs1.toNat * 2 ^ 11 +
      rs2.toNat * 2 ^ 14 + sel.toNat * 2 ^ 17) := by
  apply BitVec.eq_of_toNat_eq
  simp only [wordOf, Machine.toNat_append, BitVec.toNat_ofNat]
  omega

@[simp] theorem toNat_tField (r : TReg) : (tField r).toNat = r.val := rfl

theorem onlyWord_of_encode {u : Word} {i : Instr} (h : encode i = u) : Slice0.OnlyWord u i := by
  intro v
  rw [commandsDecodeFromTheirOneWord v i, h, eq_comm]

end Sys2Proof

namespace Sys2Proof.Machine

open Sys2Proof.Slice0

/-! ### Frames -/

/-- Only a PACK command changes a buffer byte. -/
theorem exec_sameBytes {i : Instr} {s t : State} (h : exec i s = .next t)
    (hi : destinationOf i ≠ .obuf) : SameBytes s t := by
  intro b off
  obtain ⟨hibuf, -, -, -, hresets, -⟩ := exec_keeps h
  obtain ⟨-, -, -, -, -, -, -, hobuf⟩ := (exec_frame h).changes
  refine State.byteAt_congr ?_ hresets off
  cases b with
  | ibuf => exact hibuf
  | obuf => exact not_not.1 (mt hobuf hi)

/-- The frame of a command whose destination is a `T` register, when it keeps the other seven. -/
theorem exec_onlyTChanged {i : Instr} {rd : TReg} {s t : State} (h : exec i s = .next t)
    (hi : destinationOf i = .t) (hother : ∀ j, j ≠ rd → t.getT j = s.getT j) :
    OnlyTChanged rd s t := by
  have hframe := exec_frame h
  rw [hi] at hframe
  exact ⟨hframe, hother, exec_sameBytes h (by rw [hi]; nofun)⟩

/-! ### Totals, and pairs that `canon` gives -/

theorem canon_fst (X : Int) : (canon X).1 = X.tdiv 1000000000 := rfl

theorem addTotal_eq_total (a b : InternalTime) : addTotal a b = a.total + b.total := by
  simp only [addTotal, InternalTime.total]; ring

theorem subTotal_eq_total (a b : InternalTime) : subTotal a b = a.total - b.total := by
  simp only [subTotal, InternalTime.total]; ring

/-- A pair that `canon` gives has the total it was given, and is normalized. -/
theorem total_normalized_of_eq_canon {t : State} {rd : TReg} {X : Int}
    (h : (secOf t rd, nsOf t rd) = canon X) :
    totalOf t rd = X ∧ Normalized (secOf t rd) (nsOf t rd) := by
  have htotal := canon_total X
  have hnorm := canon_normalized X
  rw [← h] at htotal hnorm
  exact ⟨htotal, hnorm⟩

theorem canon_total_of_normalized {x : InternalTime} (h : Normalized x.sec.toInt x.ns.toInt) :
    canon x.total = (x.sec.toInt, x.ns.toInt) :=
  canon_eq_of_normalized h rfl

/-- A register that holds `canon` of a time's total holds the time itself exactly when it was normalized. -/
theorem getT_eq_iff_normalized {t : State} {rd : TReg} {x : InternalTime}
    (h : (secOf t rd, nsOf t rd) = canon x.total) :
    t.getT rd = x ↔ Normalized x.sec.toInt x.ns.toInt := by
  constructor
  · rintro rfl
    exact (total_normalized_of_eq_canon h).2
  · intro hn
    obtain ⟨hsec, hns⟩ := Prod.mk.inj (h.trans (canon_total_of_normalized hn))
    exact InternalTime.ext_toInt hsec hns

/-- The pattern of a canonical pair whose seconds fit int32 reads back as the pair. -/
theorem eq_canon_of_getT {t : State} {rd : TReg} {X : Int}
    (h : t.getT rd = .ofInts (canon X).1 (canon X).2)
    (hfit : -2 ^ 31 ≤ (canon X).1 ∧ (canon X).1 ≤ 2 ^ 31 - 1) :
    (secOf t rd, nsOf t rd) = canon X := by
  rw [secOf, nsOf, h, ofInts_ns_toInt (canon_normalized X).1, InternalTime.ofInts, toInt_ofInt32 hfit]

/-! ### NORM, ADD and SUB: the common end (40_time_arith.md R73 to R75) -/

theorem normalizedInto_writeNormalized (rd : TReg) (X : Int) (s : State) :
    NormalizedInto rd X s (s.beginCommand.writeNormalized rd X) := by
  refine ⟨?_, ?_, fun hfit => ?_, fun hout => ?_⟩
  · rw [secOf, State.writeNormalized_getT]
    exact BitVec.toInt_ofInt _
  · rw [nsOf, State.writeNormalized_getT]
    exact ofInts_ns_toInt (canon_normalized X).1
  · exact (State.writeNormalized_status ..).trans (if_pos hfit)
  · refine (State.writeNormalized_status ..).trans (if_neg ?_)
    rw [canon_fst]
    omega

section
variable {rd : TReg} {X : Int} {s t : State} (h : NormalizedInto rd X s t)
include h

/-- OVF says whether the seconds fit int32. -/
theorem ovf_eq_false_iff_of_normalizedInto :
    t.status.ovf = false ↔ -2 ^ 31 ≤ (canon X).1 ∧ (canon X).1 ≤ 2 ^ 31 - 1 := by
  obtain ⟨-, -, hfit, hout⟩ := h
  rw [canon_fst]
  constructor
  · intro hovf
    by_contra hc
    have hst : StatusOverflowed s t := hout (by omega)
    rw [hst] at hovf
    cases hovf
  · intro hq
    rw [hfit hq]

theorem eq_canon_of_normalizedInto (hovf : t.status.ovf = false) :
    (secOf t rd, nsOf t rd) = canon X := by
  have hfit := (ovf_eq_false_iff_of_normalizedInto h).1 hovf
  rw [canon_fst] at hfit
  obtain ⟨hsec, hns, -, -⟩ := h
  rw [hsec, hns]
  exact Prod.ext (Int.bmod_eq_of_le (by omega) (by omega)) rfl

theorem total_normalized_of_normalizedInto (hovf : t.status.ovf = false) :
    totalOf t rd = X ∧ Normalized (secOf t rd) (nsOf t rd) :=
  total_normalized_of_eq_canon (eq_canon_of_normalizedInto h hovf)

/-- A normalized time whose total is normalized again is unchanged, with no condition. -/
theorem keeps_normalized_of_normalizedInto {x : InternalTime} (hX : X = x.total)
    (hn : Normalized x.sec.toInt x.ns.toInt) : t.getT rd = x ∧ StatusCleared s t := by
  subst hX
  have hfit : -2 ^ 31 ≤ (canon x.total).1 ∧ (canon x.total).1 ≤ 2 ^ 31 - 1 := by
    rw [canon_total_of_normalized hn]
    exact toInt32_bounds x.sec
  have hcanon := eq_canon_of_normalizedInto h ((ovf_eq_false_iff_of_normalizedInto h).2 hfit)
  obtain ⟨-, -, hcleared, -⟩ := h
  exact ⟨(getT_eq_iff_normalized hcanon).2 hn, hcleared hfit⟩

end

/-- What NORM does. -/
theorem exec_norm (rd a : TReg) (s : State) : ∃ t, exec (.norm rd a) s = .next t ∧
    NormalizedInto rd (totalOf s a) s t ∧ OnlyTChanged rd s t :=
  ⟨_, rfl, normalizedInto_writeNormalized ..,
    exec_onlyTChanged (i := .norm rd a) rfl rfl fun _ => State.writeNormalized_getT_other _ _⟩

/-- What ADD does. -/
theorem exec_add (rd a b : TReg) (s : State) : ∃ t, exec (.add rd a b) s = .next t ∧
    NormalizedInto rd (addTotal (s.getT a) (s.getT b)) s t ∧ OnlyTChanged rd s t :=
  ⟨_, rfl, normalizedInto_writeNormalized ..,
    exec_onlyTChanged (i := .add rd a b) rfl rfl fun _ => State.writeNormalized_getT_other _ _⟩

/-- What SUB does. -/
theorem exec_sub (rd a b : TReg) (s : State) : ∃ t, exec (.sub rd a b) s = .next t ∧
    NormalizedInto rd (subTotal (s.getT a) (s.getT b)) s t ∧ OnlyTChanged rd s t :=
  ⟨_, rfl, normalizedInto_writeNormalized ..,
    exec_onlyTChanged (i := .sub rd a b) rfl rfl fun _ => State.writeNormalized_getT_other _ _⟩

/-- The seconds of a total lie within 2 of int32, and outside it only where the nanoseconds hold a second or
more and the seconds are next to the limit. -/
theorem tdiv_totalOf_bounds (s : State) (a : TReg) :
    (-2 ^ 31 - 2 ≤ (totalOf s a).tdiv 1000000000 ∧ (totalOf s a).tdiv 1000000000 ≤ 2 ^ 31 + 1) ∧
    (¬ (-2 ^ 31 ≤ (totalOf s a).tdiv 1000000000 ∧ (totalOf s a).tdiv 1000000000 ≤ 2 ^ 31 - 1) →
      2 ^ 31 - 2 ≤ (secOf s a).natAbs ∧ 1000000000 ≤ (nsOf s a).natAbs) := by
  have hsec := toInt32_bounds (s.getT a).sec
  have hns := toInt32_bounds (s.getT a).ns
  have hdiv := tmod_bounds (totalOf s a) (m := 1000000000) (by omega)
  simp only [totalOf, secOf, nsOf] at hdiv ⊢
  omega

/-- Settles O14: `q` stays within 2 of int32, and OVF excludes that it fits. -/
theorem normWritesCanonicalForm : Obligations.NormWritesCanonicalForm := by
  intro rd rs1 s
  refine ⟨onlyWord_of_encode (by simp [encode, wordOf_eq_ofNat]), ?_⟩
  obtain ⟨t, ht, hinto, hframe⟩ := exec_norm rd rs1 s
  obtain ⟨⟨hlo, hhi⟩, hout⟩ := tdiv_totalOf_bounds s rs1
  refine ⟨t, ht, hinto, hframe, hlo, hhi, fun hovf => hout fun hfit => ?_⟩
  have hclear := (ovf_eq_false_iff_of_normalizedInto hinto).2 hfit
  rw [hovf] at hclear
  cases hclear

/-- Settles O15: the sources are read before `T[rd]` is written. -/
theorem addWritesNormalizedSum : Obligations.AddWritesNormalizedSum := fun rd rs1 rs2 s =>
  ⟨onlyWord_of_encode (by simp [encode, wordOf_eq_ofNat]), exec_add rd rs1 rs2 s⟩

/-- Settles O16; equal sources have total difference 0, and `(0, 0)` is normalized. -/
theorem subWritesNormalizedDifference : Obligations.SubWritesNormalizedDifference := by
  intro rd rs1 rs2 s
  refine ⟨onlyWord_of_encode (by simp [encode, wordOf_eq_ofNat]), ?_⟩
  obtain ⟨t, ht, hinto, hframe⟩ := exec_sub rd rs1 rs2 s
  refine ⟨t, ht, hinto, hframe, ?_⟩
  rintro rfl
  have hzero : subTotal (s.getT rs1) (s.getT rs1) = (InternalTime.mk 0 0).total := by
    rw [subTotal_eq_total, Int.sub_self]; rfl
  exact keeps_normalized_of_normalizedInto hinto hzero (by decide)

/-! ### HALVE (40_time_arith.md R76) -/

/-- What HALVE does: it never overflows. -/
theorem exec_halve (rd a : TReg) (s : State) : ∃ t, exec (.halve rd a) s = .next t ∧
    StatusCleared s t ∧ OnlyTChanged rd s t ∧ (secOf t rd, nsOf t rd) = canon (halfTotal (s.getT a)) :=
  ⟨_, execHalve_eq .., rfl,
    exec_onlyTChanged (i := .halve rd a) rfl rfl fun _ => State.getT_setT_other _ _,
    eq_canon_of_getT (State.getT_setT_same ..) (halfTotal_fits _)⟩

/-- Settles O17: the seconds always fit, so the canonical pair is written exactly. -/
theorem halveWritesHalf : Obligations.HalveWritesHalf := by
  intro rd rs1 s
  refine ⟨onlyWord_of_encode (by simp [encode, wordOf_eq_ofNat]), ?_⟩
  obtain ⟨t, ht, hcleared, hframe, hcanon⟩ := exec_halve rd rs1 s
  exact ⟨t, ht, hcleared, hframe, total_normalized_of_eq_canon hcanon⟩

/-- Where the halves' signs agree, cutting each division by 2 toward zero cuts the whole toward zero. -/
theorem halfTotal_of_normalized {x : InternalTime} (h : Normalized x.sec.toInt x.ns.toInt) :
    halfTotal x = x.total.tdiv 2 := by
  obtain ⟨hpos, hneg⟩ := h.signs
  have hodd := Int.mul_tdiv_add_tmod x.sec.toInt 2
  have hsec := tmod_bounds x.sec.toInt (m := 2) (by omega)
  have hhalf := tmod_bounds (x.ns.toInt + x.sec.toInt.tmod 2 * 1000000000) (m := 2) (by omega)
  symm
  apply tdiv_unique (r := x.total - halfTotal x * 2) (by omega) (by omega) <;>
    simp only [halfTotal, InternalTime.total, Config.nsPerS] <;> omega

/-! ### NOP and FLOG2 (40_time_arith.md R72, R77) -/

/-- Settles O13: NOP is the start of a command and nothing more. -/
theorem nopClearsCommandStatus : Obligations.NopClearsCommandStatus :=
  ⟨onlyWord_of_encode (by decide), fun _ =>
    ⟨_, rfl, rfl, rfl, exec_sameBytes (i := .nop) rfl nofun⟩⟩

theorem floorLog2_eq {u : Word} {k : Nat} (hk : k < 32) (h : u.getLsbD k = true)
    (habove : ∀ j, k < j → u.getLsbD j = false) : floorLog2 u = k := by
  rw [floorLog2, highestSet_eq_some (by omega) h habove]

/-- Settles O18: the search from bit 31 down stops at the highest set bit. -/
theorem flog2WritesHighestBit : Obligations.Flog2WritesHighestBit := by
  refine ⟨onlyWord_of_encode (by decide), fun s => ⟨_, rfl, rfl, rfl,
    exec_sameBytes (i := .flog2) rfl nofun, fun hzero => ?_, fun k hk hset habove => ?_⟩⟩
  · simp only [hzero]; decide
  · simp only [floorLog2_eq hk hset habove, BitVec.ofInt_natCast, BitVec.toNat_ofNat]
    omega

/-! ### What the spec infers (40_time_arith.md R73, R76, R80; 41_conversion.md R81) -/

/-- Settles O20: a normalized time is `canon` of its total, and SN2INT gives a pair of `canon`. -/
theorem normHalveAndSn2intOnNormalizedTimes : Obligations.NormHalveAndSn2intOnNormalizedTimes := by
  refine ⟨fun rd rs1 s hn => ?norm, fun rd rs1 s => ?halve, fun rd src s => ?sn2int⟩
  case norm =>
    obtain ⟨t, ht, hinto, -⟩ := exec_norm rd rs1 s
    exact ⟨t, ht, keeps_normalized_of_normalizedInto hinto rfl hn⟩
  case halve =>
    obtain ⟨t, ht, -, -, hcanon⟩ := exec_halve rd rs1 s
    obtain ⟨htotal, -⟩ := total_normalized_of_eq_canon hcanon
    refine ⟨t, ht, ?_, fun hn => ?_⟩ <;> rw [htotal]
    · exact halfTotal_near _
    · exact halfTotal_of_normalized hn
  case sn2int =>
    refine ⟨_, rfl, (total_normalized_of_eq_canon (X := (s.snSource src).toInt.tdiv (2 ^ 16)) ?_).2⟩
    rw [snToInternal_canon, secOf, nsOf, State.getT_setT_same]

/-- Settles O21: with OVF 0 the destination holds `canon` of the exact total. -/
theorem arithmeticPreservesValue : Obligations.ArithmeticPreservesValue := by
  refine ⟨fun s d a => ?norm, fun s d a b => ?add, fun s d a b => ?sub, fun s d e a b hdb => ?subOfAdd,
    fun s d a b => ?comm, fun s d e a => ?idem⟩
  case norm =>
    obtain ⟨t, ht, hinto, -⟩ := exec_norm d a s
    exact ⟨t, ht, fun hovf => total_normalized_of_normalizedInto hinto hovf⟩
  case add =>
    obtain ⟨t, ht, hinto, -⟩ := exec_add d a b s
    rw [addTotal_eq_total] at hinto
    exact ⟨t, ht, fun hovf => total_normalized_of_normalizedInto hinto hovf⟩
  case sub =>
    obtain ⟨t, ht, hinto, -⟩ := exec_sub d a b s
    rw [subTotal_eq_total] at hinto
    exact ⟨t, ht, fun hovf => total_normalized_of_normalizedInto hinto hovf⟩
  case subOfAdd =>
    obtain ⟨t, ht, hsum, -, hother, -⟩ := exec_add d a b s
    obtain ⟨u, hu, hdiff, -⟩ := exec_sub e d b t
    refine ⟨t, u, ht, hu, fun htovf huovf => ?_⟩
    have htotal : (t.getT d).total = (s.getT a).total + (s.getT b).total :=
      (total_normalized_of_normalizedInto hsum htovf).1.trans (addTotal_eq_total ..)
    have hcanon : (secOf u e, nsOf u e) = canon (totalOf s a) := by
      rw [eq_canon_of_normalizedInto hdiff huovf, subTotal_eq_total, htotal, hother b hdb.symm,
        Int.add_sub_cancel]
      rfl
    exact ⟨hcanon, getT_eq_iff_normalized hcanon⟩
  case comm =>
    have hcomm : addTotal (s.getT a) (s.getT b) = addTotal (s.getT b) (s.getT a) := by
      rw [addTotal_eq_total, addTotal_eq_total, Int.add_comm]
    simp only [exec, execAdd, hcomm]
  case idem =>
    obtain ⟨t, ht, hinto, -⟩ := exec_norm d a s
    obtain ⟨u, hu, hagain, -⟩ := exec_norm e d t
    refine ⟨t, u, ht, hu, fun hovf => ?_⟩
    obtain ⟨hkept, hcleared⟩ :=
      keeps_normalized_of_normalizedInto hagain rfl (total_normalized_of_normalizedInto hinto hovf).2
    exact ⟨hkept, by rw [hcleared]⟩

end Sys2Proof.Machine

/-! PROOFS of the statements of 41_conversion.md: the results of SN2INT (O22), INT2SN (O23), INT2WIRE (O24) and
WIRE2INT (O25), and the round trips of the conversions (O26). -/

namespace Sys2Proof.Machine

open Sys2Proof.Slice0

/-! ### The operands in the words of the statements (30_encoding.md R52) -/

@[simp] theorem toNat_snSrc_sel (src : SnSrc) : src.sel.toNat = snSel src := by cases src <;> rfl

@[simp] theorem toNat_wireSrc_sel (src : WireSrc) : src.sel.toNat = wireSel src := by cases src <;> rfl

theorem snOperand_eq_snSource (s : State) (src : SnSrc) : snOperand s src = s.snSource src := by
  cases src <;> rfl

theorem wireOperand_eq_wireSource (s : State) (src : WireSrc) :
    wireOperand s src = ((s.wireSource src).sec, (s.wireSource src).ns) := by
  cases src <;> rfl

/-! ### A command that fails (60_exceptions.md R111) -/

theorem failed_raiseFail (c : BitVec 4) (s : State) :
    StatusFailed c s (s.beginCommand.raiseFail c) ∧
      OnlyStatusChanged s (s.beginCommand.raiseFail c) :=
  ⟨rfl, rfl, fun _ => State.byteAt_congr rfl rfl⟩

/-! ### What each conversion does (41_conversion.md R81 to R84) -/

/-- What SN2INT does. -/
theorem exec_sn2int (rd : TReg) (src : SnSrc) (s : State) : ∃ t, exec (.sn2int rd src) s = .next t ∧
    StatusCleared s t ∧ OnlyTChanged rd s t ∧ t.getT rd = snToInternal (snOperand s src) :=
  ⟨_, rfl, rfl, exec_onlyTChanged (i := .sn2int rd src) rfl rfl fun _ => State.getT_setT_other _ _,
    by rw [snOperand_eq_snSource, State.getT_setT_same]⟩

section
variable {s t : State} {a : TReg} {d : SnDst} (h : exec (.int2sn a d) s = .next t)
include h

theorem eq_of_exec_int2sn_in (hin : -2 ^ 47 ≤ totalOf s a ∧ totalOf s a ≤ 2 ^ 47 - 1) :
    t = s.beginCommand.setSnDest d (BitVec.ofInt 64 (totalOf s a * 2 ^ 16)) :=
  Host.Outcome.next.inj (h.symm.trans (execInt2sn_in hin d))

theorem eq_of_exec_int2sn_out (hout : ¬ (-2 ^ 47 ≤ totalOf s a ∧ totalOf s a ≤ 2 ^ 47 - 1)) :
    t = s.beginCommand.raiseFail 6 :=
  Host.Outcome.next.inj (h.symm.trans (execInt2sn_out hout d))

/-- FAIL says whether the total is in range. -/
theorem int2sn_fail_eq_false_iff :
    t.status.fail = false ↔ -2 ^ 47 ≤ totalOf s a ∧ totalOf s a ≤ 2 ^ 47 - 1 := by
  constructor
  · intro hfail
    by_contra hout
    rw [eq_of_exec_int2sn_out h hout] at hfail
    cases hfail
  · intro hin
    rw [eq_of_exec_int2sn_in h hin]
    cases d <;> rfl

end

/-- The scaled total of a total in range reads back from its pattern. -/
theorem toInt_scaledTotal {X : Int} (h : -2 ^ 47 ≤ X ∧ X ≤ 2 ^ 47 - 1) :
    (BitVec.ofInt 64 (X * 2 ^ 16)).toInt = X * 2 ^ 16 :=
  toInt_ofInt64 (by omega)

theorem eq_of_exec_int2wire_in {s t : State} {a : TReg} (h : exec (.int2wire a) s = .next t)
    (hin : 0 ≤ secOf s a ∧ 0 ≤ nsOf s a) :
    t = { s.beginCommand with w := ⟨(s.getT a).sec.setWidth 48, (s.getT a).ns⟩ } :=
  Host.Outcome.next.inj (h.symm.trans (execInt2wire_in hin))

theorem eq_of_exec_int2wire_out {s t : State} {a : TReg} (h : exec (.int2wire a) s = .next t)
    (hout : ¬ (0 ≤ secOf s a ∧ 0 ≤ nsOf s a)) : t = s.beginCommand.raiseFail 3 :=
  Host.Outcome.next.inj (h.symm.trans (execInt2wire_out hout))

theorem eq_of_exec_wire2int_in {s t : State} {d : TReg} {x : WireSrc}
    (h : exec (.wire2int d x) s = .next t) (hin : (s.wireSource x).sec.toNat ≤ 2 ^ 31 - 1) :
    t = s.beginCommand.setT d ⟨(s.wireSource x).sec.setWidth 32, (s.wireSource x).ns⟩ :=
  Host.Outcome.next.inj (h.symm.trans (execWire2int_in hin d))

theorem eq_of_exec_wire2int_out {s t : State} {d : TReg} {x : WireSrc}
    (h : exec (.wire2int d x) s = .next t) (hout : ¬ (s.wireSource x).sec.toNat ≤ 2 ^ 31 - 1) :
    t = s.beginCommand.raiseFail 4 :=
  Host.Outcome.next.inj (h.symm.trans (execWire2int_out hout d))

/-! ### The statements -/

/-- Settles O22: the magnitude is shifted and split, and the sign given back to both halves. -/
theorem sn2intTruncatesTowardZero : Obligations.Sn2intTruncatesTowardZero := by
  intro rd src s
  refine ⟨onlyWord_of_encode (by simp [encode, wordOf_eq_ofNat]), ?_⟩
  obtain ⟨t, ht, hcleared, hframe, hT⟩ := exec_sn2int rd src s
  refine ⟨t, ht, hcleared, hframe, ?_⟩
  rintro x rfl
  rw [secOf, nsOf, hT]
  exact snToInternal_toInt _

/-- Settles O23: `total * 2^16` fits int64 exactly when the total is in `[-2^47, 2^47 - 1]`. -/
theorem int2snWritesScaledTotal : Obligations.Int2snWritesScaledTotal := by
  intro rs1 s
  refine ⟨onlyWord_of_encode (by simp [encode, wordOf_eq_ofNat, SnDst.sel]),
    onlyWord_of_encode (by simp [encode, wordOf_eq_ofNat, SnDst.sel]), ?_⟩
  obtain ⟨t, ht⟩ := exec_next (.int2sn rs1 .sn) s
  obtain ⟨u, hu⟩ := exec_next (.int2sn rs1 .ctxcorr) s
  refine ⟨t, u, ht, hu, fun hin => ?fits, fun hout => ?fails⟩
  case fits =>
    have htb : SameBytes s t := exec_sameBytes ht nofun
    have hub : SameBytes s u := exec_sameBytes hu nofun
    obtain rfl := eq_of_exec_int2sn_in ht hin
    obtain rfl := eq_of_exec_int2sn_in hu hin
    exact ⟨toInt_scaledTotal hin, rfl, rfl, htb, toInt_scaledTotal hin, rfl, rfl, hub⟩
  case fails =>
    obtain rfl := eq_of_exec_int2sn_out ht (by omega)
    obtain rfl := eq_of_exec_int2sn_out hu (by omega)
    obtain ⟨hfailed, hframe⟩ := failed_raiseFail 6 s
    exact ⟨hfailed, hframe, rfl⟩

/-- Settles O24: a non-negative pattern has the same value read unsigned. -/
theorem int2wireCopiesOrFails : Obligations.Int2wireCopiesOrFails := by
  intro rs1 s
  refine ⟨onlyWord_of_encode (by simp [encode, wordOf_eq_ofNat]), ?_⟩
  obtain ⟨t, ht⟩ := exec_next (.int2wire rs1) s
  refine ⟨t, ht, fun hin => ?copies, fun hout => ?fails⟩
  case copies =>
    have hbytes : SameBytes s t := exec_sameBytes ht nofun
    obtain rfl := eq_of_exec_int2wire_in ht hin
    refine ⟨?_, toNat_of_nonneg hin.2, rfl, rfl, hbytes⟩
    rw [BitVec.toNat_setWidth_of_le (by decide)]
    exact toNat_of_nonneg hin.1
  case fails =>
    obtain rfl := eq_of_exec_int2wire_out ht (by omega)
    exact failed_raiseFail 3 s

/-- Settles O25: seconds of at most 2^31 - 1 fit the 31 value bits of an int32. -/
theorem wire2intCopiesOrFails : Obligations.Wire2intCopiesOrFails := by
  intro rd src s
  refine ⟨onlyWord_of_encode (by simp [encode, wordOf_eq_ofNat]), ?_⟩
  obtain ⟨t, ht⟩ := exec_next (.wire2int rd src) s
  refine ⟨t, ht, fun ws wn hop => ?_⟩
  rw [wireOperand_eq_wireSource] at hop
  obtain ⟨rfl, rfl⟩ := Prod.mk.inj hop
  refine ⟨fun hin => ?copies, fun hout => ?fails⟩
  case copies =>
    obtain rfl := eq_of_exec_wire2int_in ht hin
    refine ⟨?_, ?_, rfl, exec_onlyTChanged ht rfl fun _ => State.getT_setT_other _ _⟩
    · rw [secOf, State.getT_setT_same]
      exact toInt_setWidth32 hin
    · rw [nsOf, State.getT_setT_same]
  case fails =>
    obtain rfl := eq_of_exec_wire2int_out ht (by omega)
    exact failed_raiseFail 4 s

/-! ### The round trips (41_conversion.md R85) -/

/-- SN2INT gives `canon` of the source without its fraction. -/
theorem eq_canon_of_exec_sn2int (rd : TReg) (src : SnSrc) (s : State) :
    ∃ t, exec (.sn2int rd src) s = .next t ∧
      (secOf t rd, nsOf t rd) = canon ((snOperand s src).toInt.tdiv (2 ^ 16)) := by
  obtain ⟨t, ht, -, -, hT⟩ := exec_sn2int rd src s
  exact ⟨t, ht, by rw [snToInternal_canon, secOf, nsOf, hT]⟩

/-- An int64 without its 16 fractional bits is in the range of INT2SN. -/
theorem tdiv_toInt64_bounds (x : BitVec 64) :
    -2 ^ 47 ≤ x.toInt.tdiv (2 ^ 16) ∧ x.toInt.tdiv (2 ^ 16) ≤ 2 ^ 47 - 1 := by
  have hx := toInt64_bounds x
  have hdiv := tmod_bounds x.toInt (m := 2 ^ 16) (by omega)
  omega

/-- A total in range comes back in canonical form. -/
theorem sn2int_int2sn (s : State) (a d : TReg) : ∃ t u, exec (.int2sn a .sn) s = .next t ∧
    exec (.sn2int d .sn) t = .next u ∧
    (t.status.fail = false → (secOf u d, nsOf u d) = canon (totalOf s a)) := by
  obtain ⟨t, ht⟩ := exec_next (.int2sn a .sn) s
  obtain ⟨u, hu, hcanon⟩ := eq_canon_of_exec_sn2int d .sn t
  refine ⟨t, u, ht, hu, fun hfail => ?_⟩
  have hin := (int2sn_fail_eq_false_iff ht).1 hfail
  have hsn : (snOperand t .sn).toInt = totalOf s a * 2 ^ 16 := by
    rw [eq_of_exec_int2sn_in ht hin]
    exact toInt_scaledTotal hin
  rw [hcanon, hsn, Int.mul_tdiv_cancel _ (by decide)]

/-- `SN` comes back without its fraction, and the way back never fails. -/
theorem int2sn_sn2int (s : State) (d : TReg) : ∃ t u, exec (.sn2int d .sn) s = .next t ∧
    exec (.int2sn d .sn) t = .next u ∧ u.status.fail = false ∧
    u.sn.toInt = s.sn.toInt.tdiv (2 ^ 16) * 2 ^ 16 := by
  obtain ⟨t, ht, hcanon⟩ := eq_canon_of_exec_sn2int d .sn s
  obtain ⟨u, hu⟩ := exec_next (.int2sn d .sn) t
  have htotal : totalOf t d = s.sn.toInt.tdiv (2 ^ 16) := (total_normalized_of_eq_canon hcanon).1
  have hin : -2 ^ 47 ≤ totalOf t d ∧ totalOf t d ≤ 2 ^ 47 - 1 := by
    rw [htotal]
    exact tdiv_toInt64_bounds s.sn
  refine ⟨t, u, ht, hu, (int2sn_fail_eq_false_iff hu).2 hin, ?_⟩
  rw [← htotal, eq_of_exec_int2sn_in hu hin]
  exact toInt_scaledTotal hin

/-- A pair with no negative half comes back. -/
theorem wire2int_int2wire (s : State) (a d : TReg) : ∃ t u, exec (.int2wire a) s = .next t ∧
    exec (.wire2int d .w) t = .next u ∧
    (0 ≤ secOf s a → 0 ≤ nsOf s a → u.getT d = s.getT a) := by
  obtain ⟨t, ht⟩ := exec_next (.int2wire a) s
  obtain ⟨u, hu⟩ := exec_next (.wire2int d .w) t
  refine ⟨t, u, ht, hu, fun hsec hns => ?_⟩
  have hw : t.wireSource .w = ⟨(s.getT a).sec.setWidth 48, (s.getT a).ns⟩ := by
    rw [eq_of_exec_int2wire_in ht ⟨hsec, hns⟩]; rfl
  have hin : (t.wireSource .w).sec.toNat ≤ 2 ^ 31 - 1 := by
    have hval : ((s.getT a).sec.toNat : Int) = secOf s a := toNat_of_nonneg hsec
    have hbound : secOf s a ≤ 2 ^ 31 - 1 := (toInt32_bounds _).2
    rw [hw, BitVec.toNat_setWidth_of_le (by decide)]
    omega
  rw [eq_of_exec_wire2int_in hu hin, State.getT_setT_same, hw,
    BitVec.setWidth_setWidth_of_le _ (by decide), BitVec.setWidth_eq]

/-- A timestamp whose halves are at most 2^31 - 1 comes back. -/
theorem int2wire_wire2int (s : State) (d : TReg) : ∃ t u, exec (.wire2int d .w) s = .next t ∧
    exec (.int2wire d) t = .next u ∧
    (s.w.sec.toNat ≤ 2 ^ 31 - 1 → s.w.ns.toNat ≤ 2 ^ 31 - 1 → u.w = s.w ∧ u.status.fail = false) := by
  obtain ⟨t, ht⟩ := exec_next (.wire2int d .w) s
  obtain ⟨u, hu⟩ := exec_next (.int2wire d) t
  refine ⟨t, u, ht, hu, fun hsec hns => ?_⟩
  have hT : t.getT d = ⟨s.w.sec.setWidth 32, s.w.ns⟩ := by
    rw [eq_of_exec_wire2int_in ht hsec, State.getT_setT_same]; rfl
  have hin : 0 ≤ secOf t d ∧ 0 ≤ nsOf t d := by
    rw [secOf, nsOf, hT, toInt_setWidth32 hsec, BitVec.toInt_eq_toNat_of_lt (x := s.w.ns) (by omega)]
    omega
  have hback : (s.w.sec.setWidth 32).setWidth 48 = s.w.sec := by
    apply BitVec.eq_of_toNat_eq
    rw [BitVec.toNat_setWidth_of_le (by decide), BitVec.toNat_setWidth, Nat.mod_eq_of_lt (by omega)]
  rw [eq_of_exec_int2wire_in hu hin, hT, hback]
  exact ⟨rfl, rfl⟩

/-- Settles O26, one lemma for each round trip of R85. -/
theorem conversionsRoundTrip : Obligations.ConversionsRoundTrip :=
  ⟨sn2int_int2sn, int2sn_sn2int, wire2int_int2wire, int2wire_wire2int⟩

end Sys2Proof.Machine

/-! PROOFS of the statements of 42_framer_pack.md: the messages that the PACK commands frame (O27 to O31), what
they depend on (O32), and that the parser reads them back (O39, O40). -/

namespace Sys2Proof.Machine

open Sys2Proof.Slice0

/-! ### The fields of each message (42_framer_pack.md R86 to R95) -/

/-- What follows the timestamp in the message of each PACK command that writes one. -/
def messageBody (x : Tx) : Instr → List FieldWrite
  | .packPdelayReq => [⟨44, 10, 0⟩]
  | .packDelayResp | .packPdelayResp | .packPdelayRespFu => packPortId 44 x.reqclk x.reqport
  | .packAnnounce => packAnnounceBody x
  | _ => []

/-- What follows the header in the message of each PACK command; PACK.MANAGEMENT writes no timestamp (R95). -/
def messagePayload (x : Tx) (w : WireTimestamp) : Instr → List FieldWrite
  | .packManagement => packPortId 34 x.tgtclk x.tgtport ++ packManagementBody x
  | i => packTs 34 w ++ messageBody x i

theorem messagePayload_of_ne {i : Instr} (hi : i ≠ .packManagement) (x : Tx) (w : WireTimestamp) :
    messagePayload x w i = packTs 34 w ++ messageBody x i := by
  cases i with
  | packManagement => exact absurd rfl hi
  | _ => rfl

section
variable {i : Instr} {type len ctrl : Nat} (hi : (i, type, len, ctrl) ∈ packTable)
include hi

/-- A PACK command writes its header and its payload. -/
theorem exec_eq_writeFields (s : State) : exec i s = .next (s.beginCommand.writeFields
    (packHeader s.ctx type len ctrl ++ messagePayload s.tx s.w i)) := by
  fin_cases hi <;> rfl

theorem messageBody_chain (hm : i ≠ .packManagement) (x : Tx) : Chain 44 (messageBody x i) len := by
  fin_cases hi <;> simp [messageBody, packPortId, packAnnounceBody, Chain] at hm ⊢

/-- The payload fills the message from the end of the header to the length of the table. -/
theorem messagePayload_chain (x : Tx) (w : WireTimestamp) :
    Chain 34 (messagePayload x w i) len := by
  by_cases hm : i = .packManagement
  · subst hm
    obtain ⟨-, rfl, -⟩ : type = 0xD ∧ len = 48 ∧ ctrl = 0x04 := by simpa [packTable] using hi
    exact (packPortId_chain ..).append (packManagementBody_chain x)
  · rw [messagePayload_of_ne hm]
    exact (packTs_chain ..).append (messageBody_chain hi hm x)

/-- The message type fits its nibble, the controlField its byte and the length its field (30_encoding.md R60
to R63). -/
theorem packTable_bounds : type < 16 ∧ 34 ≤ len ∧ len < 2 ^ 16 ∧ ctrl < 2 ^ 8 := by
  fin_cases hi <;> decide

end

/-! ### Every field holds its number -/

/-- The number of a field write fits its bytes, so that `BufWrite` drops no bit of it. -/
def FieldWrite.Fits (f : FieldWrite) : Prop := f.v < 256 ^ f.n

@[simp] theorem FieldWrite.fits_zero (o n : Nat) : FieldWrite.Fits ⟨o, n, 0⟩ :=
  Nat.pow_pos (by decide)

@[simp] theorem FieldWrite.fits_toNat (o n : Nat) {m : Nat} (x : BitVec m) (h : m ≤ 8 * n) :
    FieldWrite.Fits ⟨o, n, x.toNat⟩ := by
  rw [Fits, show 256 = 2 ^ 8 from rfl, ← Nat.pow_mul]
  exact Nat.lt_of_lt_of_le x.isLt (Nat.pow_le_pow_right (by decide) h)

theorem packHeader_fits (c : Ctx) {type len ctrl : Nat} (ht : type < 16) (hl : len < 2 ^ 16)
    (hc : ctrl < 2 ^ 8) : ∀ f ∈ packHeader c type len ctrl, f.Fits := by
  have h0 : FieldWrite.Fits ⟨0, 1, c.transport.toNat * 16 + type⟩ := by
    have hb := c.transport.isLt
    show c.transport.toNat * 16 + type < 256 ^ 1
    omega
  have h2 : FieldWrite.Fits ⟨2, 2, len⟩ := hl
  have h32 : FieldWrite.Fits ⟨32, 1, ctrl⟩ := hc
  simp [packHeader, h0, h2, h32]

theorem packTs_fits (o : Nat) (w : WireTimestamp) : ∀ f ∈ packTs o w, f.Fits := by simp [packTs]

theorem packPortId_fits (o : Nat) (k : BitVec 64) (p : BitVec 16) :
    ∀ f ∈ packPortId o k p, f.Fits := by simp [packPortId]

theorem messageBody_fits (x : Tx) (i : Instr) : ∀ f ∈ messageBody x i, f.Fits := by
  cases i with
  | packDelayResp | packPdelayResp | packPdelayRespFu => exact packPortId_fits _ _ _
  | _ => simp [messageBody, packAnnounceBody]

theorem messagePayload_fits (x : Tx) (w : WireTimestamp) (i : Instr) :
    ∀ f ∈ messagePayload x w i, f.Fits := by
  by_cases hm : i = .packManagement
  · subst hm
    exact List.forall_mem_append.2 ⟨packPortId_fits _ _ _, by simp [packManagementBody]⟩
  · rw [messagePayload_of_ne hm]
    exact List.forall_mem_append.2 ⟨packTs_fits _ _, messageBody_fits _ _⟩

/-- OBUF holds at the place of each field the number that was to be written there. -/
def FieldsFramed (fs : List FieldWrite) (t : State) : Prop :=
  ∀ f ∈ fs, t.bufRead .obuf f.off f.n = f.v

theorem headerFramed_iff {type len ctrl : Nat} {s t : State} :
    HeaderFramed type len ctrl s t ↔ FieldsFramed (packHeader s.ctx type len ctrl) t := by
  simp [HeaderFramed, FieldsFramed, packHeader]

theorem timestampFramed_iff {s t : State} :
    TimestampFramed s t ↔ FieldsFramed (packTs 34 s.w) t := by
  simp [TimestampFramed, FieldsFramed, packTs]

/-- The frame of a message whose fields fill OBUF from offset 0 to `len` (42_framer_pack.md R96). -/
theorem framedOnly_writeFields {fs : List FieldWrite} {len : Nat} (h : Chain 0 fs len) (s : State) :
    FramedOnly len s (s.beginCommand.writeFields fs) := by
  obtain ⟨hobuf, hibuf, -⟩ := writeFields_message h s.beginCommand
  refine ⟨?_, writeFields_frame_obuf s fs, hobuf, hibuf⟩
  rw [StatusCleared, State.writeFields_eq]
  rfl

/-! ### What a PACK command leaves -/

/-- Every PACK command frames its header and its payload, and nothing else changes. -/
theorem exec_pack_framed {i : Instr} {type len ctrl : Nat} (hi : (i, type, len, ctrl) ∈ packTable)
    (s : State) : ∃ t, exec i s = .next t ∧ HeaderFramed type len ctrl s t ∧
      FieldsFramed (messagePayload s.tx s.w i) t ∧ FramedOnly len s t := by
  obtain ⟨ht, -, hl, hc⟩ := packTable_bounds hi
  have hchain := (packHeader_chain s.ctx type len ctrl).append (messagePayload_chain hi s.tx s.w)
  have hfits := List.forall_mem_append.2
    ⟨packHeader_fits s.ctx ht hl hc, messagePayload_fits s.tx s.w i⟩
  have hfields : FieldsFramed _ (s.beginCommand.writeFields _) :=
    fun f hf => State.writeFields_bufRead hchain _ hf (hfits f hf)
  obtain ⟨hheader, hpayload⟩ := List.forall_mem_append.1 hfields
  exact ⟨_, exec_eq_writeFields hi s, headerFramed_iff.2 hheader, hpayload,
    framedOnly_writeFields hchain s⟩

/-- Every PACK command but PACK.MANAGEMENT frames its header, `W` and its body, and nothing else changes. -/
theorem exec_pack_timestamped {i : Instr} {type len ctrl : Nat}
    (hi : (i, type, len, ctrl) ∈ packTable) (hm : i ≠ .packManagement) (s : State) :
    ∃ t, exec i s = .next t ∧ HeaderFramed type len ctrl s t ∧ TimestampFramed s t ∧
      FieldsFramed (messageBody s.tx i) t ∧ FramedOnly len s t := by
  obtain ⟨t, ht, hheader, hpayload, hframe⟩ := exec_pack_framed hi s
  rw [messagePayload_of_ne hm] at hpayload
  obtain ⟨hts, hbody⟩ := List.forall_mem_append.1 hpayload
  exact ⟨t, ht, hheader, timestampFramed_iff.2 hts, hbody, hframe⟩

/-- What every message but Management shares, without its body. -/
theorem exec_pack_headerAndTimestamp {i : Instr} {type len ctrl : Nat}
    (hi : (i, type, len, ctrl) ∈ packTable) (hm : i ≠ .packManagement) (s : State) :
    ∃ t, exec i s = .next t ∧ HeaderFramed type len ctrl s t ∧ TimestampFramed s t ∧
      FramedOnly len s t := by
  obtain ⟨t, ht, hheader, hts, -, hframe⟩ := exec_pack_timestamped hi hm s
  exact ⟨t, ht, hheader, hts, hframe⟩

/-- A message whose body is one port identity: `TX.reqclk` at 44 and `TX.reqport` at 52. -/
theorem exec_pack_portIdentity {i : Instr} {type len ctrl : Nat}
    (hi : (i, type, len, ctrl) ∈ packTable) (hm : i ≠ .packManagement)
    (hb : ∀ x, messageBody x i = packPortId 44 x.reqclk x.reqport) (s : State) :
    ∃ t, exec i s = .next t ∧ HeaderFramed type len ctrl s t ∧ TimestampFramed s t ∧
      t.bufRead .obuf 44 8 = s.tx.reqclk.toNat ∧ t.bufRead .obuf 52 2 = s.tx.reqport.toNat ∧
      FramedOnly len s t := by
  obtain ⟨t, ht, hheader, hts, hbody, hframe⟩ := exec_pack_timestamped hi hm s
  obtain ⟨hclk, hport⟩ : t.bufRead .obuf 44 8 = s.tx.reqclk.toNat ∧
      t.bufRead .obuf 52 2 = s.tx.reqport.toNat := by
    simpa [hb, FieldsFramed, packPortId] using hbody
  exact ⟨t, ht, hheader, hts, hclk, hport, hframe⟩

/-- Settles O27: the three messages with an empty body. -/
theorem packTimestampMessages : Obligations.PackTimestampMessages := fun s =>
  ⟨⟨onlyWord_of_encode rfl, onlyWord_of_encode rfl, onlyWord_of_encode rfl⟩,
    exec_pack_headerAndTimestamp (i := .packSync) (by decide) nofun s,
    exec_pack_headerAndTimestamp (i := .packFollowUp) (by decide) nofun s,
    exec_pack_headerAndTimestamp (i := .packDelayReq) (by decide) nofun s⟩

/-- Settles O28: the body is ten bytes of one field that is 0. -/
theorem packPdelayReqMessage : Obligations.PackPdelayReqMessage := by
  refine ⟨onlyWord_of_encode rfl, fun s => ?_⟩
  obtain ⟨t, ht, hheader, hts, hbody, hframe⟩ :=
    exec_pack_timestamped (show (.packPdelayReq, 0x2, 54, 0x05) ∈ packTable by decide) nofun s
  exact ⟨t, ht, hheader, hts, hbody ⟨44, 10, 0⟩ (List.mem_singleton_self _), hframe⟩

/-- Settles O29: the three messages whose body is the requesting port identity. -/
theorem packPortIdentityMessages : Obligations.PackPortIdentityMessages :=
  ⟨⟨onlyWord_of_encode rfl, onlyWord_of_encode rfl, onlyWord_of_encode rfl⟩, fun s =>
    ⟨exec_pack_portIdentity (i := .packDelayResp) (by decide) nofun (fun _ => rfl) s,
      exec_pack_portIdentity (i := .packPdelayResp) (by decide) nofun (fun _ => rfl) s,
      exec_pack_portIdentity (i := .packPdelayRespFu) (by decide) nofun (fun _ => rfl) s⟩⟩

/-- Settles O30: the body is the ten fields of R87. -/
theorem packAnnounceMessage : Obligations.PackAnnounceMessage := by
  refine ⟨onlyWord_of_encode rfl, fun s => ?_⟩
  obtain ⟨t, ht, hheader, hts, hbody, hframe⟩ :=
    exec_pack_timestamped (show (.packAnnounce, 0xB, 64, 0x05) ∈ packTable by decide) nofun s
  refine ⟨t, ht, hheader, hts, ?_⟩
  simpa [FieldsFramed, messageBody, packAnnounceBody, hframe] using hbody

/-- Settles O31: the payload is the target port identity and the four fields of R95. -/
theorem packManagementMessage : Obligations.PackManagementMessage := by
  refine ⟨onlyWord_of_encode rfl, fun s => ?_⟩
  obtain ⟨t, ht, hheader, hpayload, hframe⟩ :=
    exec_pack_framed (show (.packManagement, 0xD, 48, 0x04) ∈ packTable by decide) s
  refine ⟨t, ht, hheader, ?_⟩
  simpa [FieldsFramed, messagePayload, packPortId, packManagementBody, hframe] using hpayload

/-- Settles O32: equal sources give equal fields, and the fields give every byte of the message. -/
theorem packReadsOnlyItsSources : Obligations.PackReadsOnlyItsSources := by
  rintro ⟨i, type, len, ctrl⟩ hi s s' hctx htx hw
  have hpayload : messagePayload s.tx s.w i = messagePayload s'.tx s'.w i := by
    rw [htx]
    rcases hw with hw | rfl
    · rw [hw]
    · rfl
  refine ⟨_, _, exec_eq_writeFields hi s, exec_eq_writeFields hi s', fun off hoff => ?_⟩
  rw [hctx, hpayload]
  exact State.writeFields_byteAt_inside
    ((packHeader_chain ..).append (messagePayload_chain hi ..)) _ _ ⟨Nat.zero_le _, hoff⟩

/-! ### The parser on a framed message (43_framer_unpack.md R97 to R107) -/

/-- The low nibble of a byte, where messageType, versionPTP and actionField stand. -/
theorem extractLow_eq_setWidth (b : BitVec 8) : b.extractLsb' 0 4 = b.setWidth 4 := by
  rw [BitVec.setWidth_eq_extractLsb' (by decide)]

/-- The high nibble of byte 0, where transportSpecific stands. -/
theorem extractHigh_ofNat (x : BitVec 4) {type : Nat} (h : type < 16) :
    (BitVec.ofNat 8 (x.toNat * 16 + type)).extractLsb' 4 4 = x := by
  apply BitVec.eq_of_toNat_eq
  have := x.isLt
  simp only [BitVec.extractLsb'_toNat, BitVec.toNat_ofNat, Nat.shiftRight_eq_div_pow]
  omega

theorem ofNat_nibbles (m type : Nat) : BitVec.ofNat 4 (m * 16 + type) = BitVec.ofNat 4 type := by
  apply BitVec.eq_of_toNat_eq
  simp only [BitVec.toNat_ofNat]
  omega

section
variable {s t u : State} {len : Nat} (hr : Received len t u)
include hr

theorem unpackHeader_received {type mlen ctrl : Nat} (hlen : 34 ≤ len) (ht : type < 16)
    (hh : HeaderFramed type mlen ctrl s t) : u.unpackHeader =
      { transport := s.ctx.transport, msgtype := BitVec.ofNat 4 type, version := s.ctx.version,
        length := BitVec.ofNat 16 mlen, domain := s.ctx.domain, flags := s.ctx.flags,
        corr := s.ctx.corr, clkid := s.ctx.clkid, port := s.ctx.port, seq := s.ctx.seq,
        ctrl := BitVec.ofNat 8 ctrl, logint := s.ctx.logint } := by
  unfold HeaderFramed at hh
  simp (disch := omega) only [State.unpackHeader, State.ibufField_received hr, hh, extractHigh_ofNat,
    extractLow_eq_setWidth, BitVec.setWidth_ofNat_of_le, ofNat_nibbles, BitVec.ofNat_toNat,
    BitVec.setWidth_setWidth_of_le, BitVec.setWidth_eq]

theorem unpackTs_received (hlen : 44 ≤ len) (hts : TimestampFramed s t) (r : Rx) :
    u.unpackTs 34 r = { r with tsSec := s.w.sec, tsNs := s.w.ns } := by
  unfold TimestampFramed at hts
  simp (disch := omega) only [State.unpackTs, State.ibufField_received hr, hts, BitVec.ofNat_toNat,
    BitVec.setWidth_eq]

theorem unpackReqId_received (hlen : 54 ≤ len)
    (hclk : t.bufRead .obuf 44 8 = s.tx.reqclk.toNat)
    (hport : t.bufRead .obuf 52 2 = s.tx.reqport.toNat) (r : Rx) :
    u.unpackReqId 44 r = { r with reqclk := s.tx.reqclk, reqport := s.tx.reqport } := by
  simp (disch := omega) only [State.unpackReqId, State.ibufField_received hr, hclk, hport,
    BitVec.ofNat_toNat, BitVec.setWidth_eq]

end

/-- Settles O39: each header field parses back from the bytes it was framed in. -/
theorem framedHeadersParseBack : Obligations.FramedHeadersParseBack := by
  rintro ⟨i, type, len, ctrl⟩ hi s
  obtain ⟨htype, hlen, -⟩ := packTable_bounds hi
  obtain ⟨t, ht, hheader, -⟩ := exec_pack_framed hi s
  exact ⟨t, ht, fun u hr => ⟨_, rfl, unpackHeader_received hr hlen htype hheader⟩⟩

/-- A command that parses the timestamp gives `W` from a message that was framed with one. -/
theorem timestamp_parsesBack {i j : Instr} (hi : destinationOf i = .obuf) (hm : i ≠ .packManagement)
    (hj : ∀ u, exec j u = .next { u.beginCommand with rx := u.unpackTs 34 u.rx }) (s : State) :
    ∃ t, exec i s = .next t ∧ ∀ u, Received 44 t u →
      ∃ v, exec j u = .next v ∧ v.rx = { u.rx with tsSec := s.w.sec, tsNs := s.w.ns } := by
  obtain ⟨⟨_, type, len, ctrl⟩, hp, rfl⟩ := of_destinationOf_obuf hi
  obtain ⟨t, ht, -, hts, -⟩ := exec_pack_timestamped hp hm s
  exact ⟨t, ht, fun u hr => ⟨_, hj u, unpackTs_received hr le_rfl hts u.rx⟩⟩

/-- A command that parses the timestamp and the requesting port identity gives `W` and that of `TX`. -/
theorem portIdentity_parsesBack {i j : Instr} (hi : destinationOf i = .obuf)
    (hm : i ≠ .packManagement) (hb : ∀ x, messageBody x i = packPortId 44 x.reqclk x.reqport)
    (hj : ∀ u, exec j u =
      .next { u.beginCommand with rx := u.unpackReqId 44 (u.unpackTs 34 u.rx) }) (s : State) :
    ∃ t, exec i s = .next t ∧ ∀ u, Received 54 t u → ∃ v, exec j u = .next v ∧
      v.rx = { u.rx with tsSec := s.w.sec, tsNs := s.w.ns,
                         reqclk := s.tx.reqclk, reqport := s.tx.reqport } := by
  obtain ⟨⟨_, type, len, ctrl⟩, hp, rfl⟩ := of_destinationOf_obuf hi
  obtain ⟨t, ht, -, hts, hclk, hport, -⟩ := exec_pack_portIdentity hp hm hb s
  refine ⟨t, ht, fun u hr => ⟨_, hj u, ?_⟩⟩
  rw [unpackTs_received hr (by decide) hts]
  exact unpackReqId_received hr (by decide) hclk hport _

/-- Settles O40: each field of the payload parses back from the bytes it was framed in. -/
theorem framedBodiesParseBack : Obligations.FramedBodiesParseBack := by
  refine ⟨fun p hp => ?_, fun p hp => ?_, fun s => ?_, fun s => ?_⟩
  · fin_cases hp <;> exact timestamp_parsesBack rfl nofun fun _ => rfl
  · fin_cases hp <;> exact portIdentity_parsesBack rfl nofun (fun _ => rfl) fun _ => rfl
  · obtain ⟨-, hmessages⟩ := packAnnounceMessage
    obtain ⟨t, ht, -, hts, hutcoff, -, hpri1, hcls, hacc, hvar, hpri2, hgmid, hsteps, htsrc, -⟩ :=
      hmessages s
    refine ⟨t, ht, fun u hr => ⟨_, rfl, ?_⟩⟩
    show u.unpackAnnounceBody (u.unpackTs 34 u.rx) = _
    rw [unpackTs_received hr (by decide) hts]
    simp (disch := decide) only [State.unpackAnnounceBody, State.ibufField_received hr, hutcoff, hpri1,
      hcls, hacc, hvar, hpri2, hgmid, hsteps, htsrc, BitVec.ofNat_toNat, BitVec.setWidth_eq]
  · obtain ⟨-, hmessages⟩ := packManagementMessage
    obtain ⟨t, ht, -, htgtclk, htgtport, hsbh, hbh, haction, -⟩ := hmessages s
    refine ⟨t, ht, fun u hr => ⟨_, rfl, ?_⟩⟩
    show u.unpackManagementBody u.rx = _
    simp (disch := decide) only [State.unpackManagementBody, State.ibufField_received hr, htgtclk,
      htgtport, hsbh, hbh, haction, extractLow_eq_setWidth, BitVec.ofNat_toNat,
      BitVec.setWidth_setWidth_of_le, BitVec.setWidth_eq]

end Sys2Proof.Machine

/-! PROOFS of the statements of 43_framer_unpack.md: the header that UNPACKHDR decodes (O33) and the fields
of `RX` that each body command decodes (O34 to O37). -/

namespace Sys2Proof.Machine

open Sys2Proof.Slice0

/-! ### The nibbles of a parsed byte -/

section
variable (s : State) (off : Nat)

theorem highNibble_ibufField_toNat :
    ((s.ibufField off 1 8).extractLsb' 4 4).toNat = s.bufRead .ibuf off 1 / 16 := by
  have hlt := s.bufRead_lt .ibuf off 1
  rw [BitVec.extractLsb'_toNat, Nat.shiftRight_eq_div_pow, State.ibufField_toNat s rfl]
  omega

theorem lowNibble_ibufField_toNat :
    ((s.ibufField off 1 8).extractLsb' 0 4).toNat = s.bufRead .ibuf off 1 % 16 := by
  rw [BitVec.extractLsb'_toNat, Nat.shiftRight_zero, State.ibufField_toNat s rfl]

end

/-! ### What a body command of the parser leaves (43_framer_unpack.md R97, R108) -/

/-- A command that ends with a new `RX` record changes nothing else. -/
theorem parsedOnly_beginCommand (s : State) (rx : Rx) :
    ParsedOnly s { s.beginCommand with rx := rx } rx :=
  ⟨rfl, rfl, fun _ => State.byteAt_congr rfl rfl⟩

/-- The two fields of the timestamp hold the numbers of their bytes. -/
theorem timestampParsed_of_eq {s t : State} (hsec : t.rx.tsSec = s.ibufField 34 6 48)
    (hns : t.rx.tsNs = s.ibufField 40 4 32) : TimestampParsed s t := by
  rw [TimestampParsed, hsec, hns]
  exact ⟨s.ibufField_toNat rfl, s.ibufField_toNat rfl⟩

/-- A command that ends with `UnpackTS(34)` parses the timestamp alone. -/
theorem exec_parsesTimestamp {i : Instr}
    (hi : ∀ s, exec i s = .next { s.beginCommand with rx := s.unpackTs 34 s.rx }) (s : State) :
    ∃ t, exec i s = .next t ∧ TimestampParsed s t ∧
      ParsedOnly s t { s.rx with tsSec := t.rx.tsSec, tsNs := t.rx.tsNs } :=
  ⟨_, hi s, timestampParsed_of_eq rfl rfl, parsedOnly_beginCommand s _⟩

/-- A command that ends with `UnpackTS(34)` and `UnpackReqId(44)` parses the timestamp and the requesting
port identity. -/
theorem exec_parsesPortIdentity {i : Instr}
    (hi : ∀ s, exec i s =
      .next { s.beginCommand with rx := s.unpackReqId 44 (s.unpackTs 34 s.rx) }) (s : State) :
    ∃ t, exec i s = .next t ∧ TimestampParsed s t ∧
      t.rx.reqclk.toNat = s.bufRead .ibuf 44 8 ∧ t.rx.reqport.toNat = s.bufRead .ibuf 52 2 ∧
      ParsedOnly s t { s.rx with
        tsSec := t.rx.tsSec, tsNs := t.rx.tsNs, reqclk := t.rx.reqclk, reqport := t.rx.reqport } :=
  ⟨_, hi s, timestampParsed_of_eq rfl rfl, s.ibufField_toNat rfl, s.ibufField_toNat rfl,
    parsedOnly_beginCommand s _⟩

/-! ### The statements -/

/-- Settles O33: bytes 0 and 1 give three nibbles, the other nine fields are read whole. -/
theorem unpackHdrReadsHeader : Obligations.UnpackHdrReadsHeader := by
  refine ⟨onlyWord_of_encode rfl, fun s => ?_⟩
  have field := @State.ibufField_toNat s
  exact ⟨_, rfl, rfl, rfl, fun _ => State.byteAt_congr rfl rfl,
    highNibble_ibufField_toNat s 0, lowNibble_ibufField_toNat s 0, lowNibble_ibufField_toNat s 1,
    field rfl, field rfl, field rfl, field rfl, field rfl, field rfl, field rfl, field rfl, field rfl⟩

/-- Settles O34: the four bodies of which only the timestamp is parsed. -/
theorem unpackTimestampBodies : Obligations.UnpackTimestampBodies := by
  intro p hp
  fin_cases hp <;> exact ⟨onlyWord_of_encode rfl, exec_parsesTimestamp fun _ => rfl⟩

/-- Settles O35: the three bodies that end with the requesting port identity. -/
theorem unpackPortIdentityBodies : Obligations.UnpackPortIdentityBodies := by
  intro p hp
  fin_cases hp <;> exact ⟨onlyWord_of_encode rfl, exec_parsesPortIdentity fun _ => rfl⟩

/-- Settles O36: every field of the body is read whole. -/
theorem unpackAnnounceBody : Obligations.UnpackAnnounceBody := by
  refine ⟨onlyWord_of_encode rfl, fun s => ?_⟩
  have field := @State.ibufField_toNat s
  exact ⟨_, rfl, timestampParsed_of_eq rfl rfl,
    field rfl, field rfl, field rfl, field rfl, field rfl, field rfl, field rfl, field rfl, field rfl,
    parsedOnly_beginCommand s _⟩

/-- Settles O37: four fields are read whole, and of byte 46 the low nibble is the action. -/
theorem unpackManagementBody : Obligations.UnpackManagementBody := by
  refine ⟨onlyWord_of_encode rfl, fun s => ?_⟩
  have field := @State.ibufField_toNat s
  exact ⟨_, rfl, field rfl, field rfl, field rfl, field rfl, lowNibble_ibufField_toNat s 46,
    parsedOnly_beginCommand s _⟩

end Sys2Proof.Machine

/-! PROOFS of the statements of 60_exceptions.md: the invariant that every step keeps (O8), what an illegal word
(O6) and every command word (O11) leave in STATUS, and which command raises which condition (O12). -/

namespace Sys2Proof.Machine

open Sys2Proof.Slice0

/-! ### The invariant (60_exceptions.md R114, R115; 20_memory.md R44) -/

/-- Whatever STATUS held before, a command leaves it consistent: it clears it and records at most one condition. -/
theorem exec_status_consistent {i : Instr} {s t : State} (h : exec i s = .next t) :
    t.status.consistent := by
  rcases exec_status h with hst | hst | hst | hst | hst <;> rw [hst]
  · exact .inl ⟨rfl, rfl, rfl, rfl⟩
  · exact .inr (.inr (.inl ⟨rfl, rfl, rfl, .inl rfl⟩))
  · exact .inr (.inr (.inl ⟨rfl, rfl, rfl, .inr (.inl rfl)⟩))
  · exact .inr (.inr (.inl ⟨rfl, rfl, rfl, .inr (.inr rfl)⟩))
  · exact .inr (.inr (.inr ⟨rfl, rfl, rfl, rfl⟩))

theorem Status.consistent_illegal (st : Status) (why : IllegalWord) :
    (st.beginCommand.illegal (illegalCause why)).consistent := by
  refine .inr (.inl ⟨rfl, rfl, rfl, ?_⟩)
  cases why
  · exact .inl rfl
  · exact .inr rfl

/-- The write of a register word leaves the condition in STATUS; to STATUS itself it clears sticky bits only. -/
theorem regWrite_status_consistent (r : RegWord) (v : Word) {s : State} (h : s.status.consistent) :
    (regWrite r v s).status.consistent := by
  by_cases hr : r = .status
  · subst hr; exact h
  · rwa [regWrite_status hr]

section
variable {s t : State} (ho : Memory.wf s.obuf) (hi : Memory.wf s.ibuf)
include ho hi

theorem exec_inv {i : Instr} (h : exec i s = .next t) : t.Inv := by
  obtain ⟨hibuf, -⟩ := exec_keeps h
  exact ⟨exec_wf h ho, hibuf ▸ hi, exec_status_consistent h⟩

/-- A command word needs the buffers' canonical form alone: it writes the condition in STATUS anew. -/
theorem performCommand_inv {v : Word} (h : performCommand v s = .next t) : t.Inv := by
  rcases performCommand_cases h with ⟨i, -, hx⟩ | ⟨why, -, rfl⟩
  · exact exec_inv (s := { s with cmd := v }) ho hi hx
  · exact ⟨ho, hi, Status.consistent_illegal _ why⟩

end

theorem inv_reset (n : Nat) (pending : List HostEvent) :
    ({ State.reset with resets := n, pending := pending } : State).Inv :=
  have hnil : Memory.wf [] := ⟨.nil, nofun⟩
  ⟨hnil, hnil, .inl ⟨rfl, rfl, rfl, rfl⟩⟩

/-- Every interaction of the host keeps the invariant. -/
theorem hostEvent_inv {e : HostEvent} {s t : State} (hs : s.Inv) (h : hostEvent e s = .next t) :
    t.Inv := by
  obtain ⟨ho, hi, hst⟩ := hs
  rcases hostEvent_cases h with ⟨-, rfl⟩ | ⟨_, _, -, -, rfl⟩ | ⟨_, _, -, -, rfl⟩ |
    ⟨_, _, _, -, -, rfl⟩ | ⟨v, -, hp⟩ | ⟨_, v, r, -, -, -, -, -, rfl⟩ | ⟨_, _, -, -, -, -, rfl⟩ |
    ⟨a, n, v, -, h1, h2, rfl⟩
  · exact inv_reset ..
  · exact ⟨ho, hi, hst⟩
  · exact ⟨ho, hi, hst⟩
  · exact ⟨ho, hi, hst⟩
  · exact performCommand_inv (s := s.respond .written) ho hi hp
  · obtain ⟨hobuf, hibuf, -⟩ := regWrite_keeps r v (s.respond .written)
    exact ⟨hobuf ▸ ho, hibuf ▸ hi, regWrite_status_consistent r v hst⟩
  · exact ⟨ho, hi, hst⟩
  · obtain ⟨hobuf, hibuf⟩ := laneWrite_wf (s := s.respond .written) v.toNat
      (windowOf_fits h1 a.isLt h2) ⟨ho, hi⟩
    exact ⟨hobuf, hibuf, (State.setBytes_status ..).symm ▸ hst⟩

/-- Settles O8: a step is idle or one interaction of the host. -/
theorem stepKeepsInvariant : Obligations.StepKeepsInvariant := by
  intro s t hs h
  cases hp : s.pending with
  | nil =>
    rw [step_idle hp] at h
    cases h
    exact hs
  | cons e rest =>
    rw [step_of_pending hp] at h
    exact hostEvent_inv (s := { s with pending := rest }) hs h

/-! ### The write of a command word (60_exceptions.md R110, R113) -/

theorem statusIllegal_raiseIllegal (why : IllegalWord) (s : State) :
    StatusIllegal (causeOf why) s (s.beginCommand.raiseIllegal (illegalCause why)) := by
  cases why <;> rfl

theorem bit_true : bit true = 1 := rfl

theorem bit_false : bit false = 0 := rfl

/-- `STATUS[7:0]` holds ILL and the cause; the sticky bits stand above. -/
theorem toWord_mod_of_statusIllegal {why : IllegalWord} {s t : State}
    (h : StatusIllegal (causeOf why) s t) : t.status.toWord.toNat % 256 = illegalByte why := by
  rw [h, Status.toWord_toNat]
  cases why <;> simp [bit_true, bit_false, causeOf, illegalByte] <;> omega

/-- What a command, as opposed to an illegal word, can leave in STATUS (60_exceptions.md R111 to R114). -/
theorem exec_statusUpdate {i : Instr} {s t : State} (h : exec i s = .next t) :
    StatusCleared s t ∨ StatusFailed 3 s t ∨ StatusFailed 4 s t ∨ StatusFailed 6 s t ∨
      StatusOverflowed s t :=
  exec_status h

theorem exec_not_statusIllegal {i : Instr} {s t : State} (h : exec i s = .next t) (c : BitVec 4) :
    ¬ StatusIllegal c s t := by
  intro hill
  rcases exec_statusUpdate h with hst | hst | hst | hst | hst <;> cases hst.symm.trans hill

/-- Settles O6: an illegal word stores CMD and records its cause, and nothing more. -/
theorem illegalWordOnlyRecords : Obligations.IllegalWordOnlyRecords := by
  refine ⟨fun s rest v why h => ?_, by decide, by decide, by decide⟩
  have hst := statusIllegal_raiseIllegal why
    { s with pending := rest, response := some .written, cmd := v }
  exact ⟨_, (step_command s rest v).trans (performCommand_illegal h _), hst,
    toWord_mod_of_statusIllegal hst, rfl, fun _ => State.byteAt_congr rfl rfl⟩

/-- The four updates of STATUS by a command word (60_exceptions.md R113). -/
theorem performCommand_statusUpdate {v : Word} {s t : State} (h : performCommand v s = .next t) :
    StatusCleared s t ∨ (∃ c, StatusIllegal c s t) ∨ (∃ c, StatusFailed c s t) ∨
      StatusOverflowed s t := by
  rcases performCommand_cases h with ⟨i, -, hx⟩ | ⟨why, -, rfl⟩
  · rcases exec_statusUpdate hx with hst | hst | hst | hst | hst
    · exact .inl hst
    · exact .inr (.inr (.inl ⟨3, hst⟩))
    · exact .inr (.inr (.inl ⟨4, hst⟩))
    · exact .inr (.inr (.inl ⟨6, hst⟩))
    · exact .inr (.inr (.inr hst))
  · exact .inr (.inl ⟨_, rfl⟩)

/-- A word is recorded as illegal exactly when it is no command's: a command never records ILL. -/
theorem performCommand_statusIllegal_iff {v : Word} {s t : State} (h : performCommand v s = .next t) :
    (∃ c, StatusIllegal c s t) ↔ ∀ i, decode v ≠ .command i := by
  rcases performCommand_cases h with ⟨i, hd, hx⟩ | ⟨why, hd, rfl⟩ <;> rw [hd]
  · exact ⟨fun ⟨c, hc⟩ => absurd hc (exec_not_statusIllegal hx c), fun hne => absurd rfl (hne i)⟩
  · exact ⟨fun _ => nofun, fun _ => ⟨_, rfl⟩⟩

/-- Settles O11: the step is `performCommand`, whose updates of STATUS are known. -/
theorem commandWordUpdatesStatus : Obligations.CommandWordUpdatesStatus := by
  intro s rest v
  obtain ⟨t, ht, hcmd, -⟩ := performCommand_next v { s with pending := rest, response := some .written }
  exact ⟨t, (step_command s rest v).trans ht, hcmd, (performCommand_statusUpdate ht :),
    (performCommand_statusIllegal_iff ht :), (performCommand_sBusErr ht :)⟩

/-! ### The condition of each command (60_exceptions.md R111, R112, R114) -/

/-- A condition that a command records in STATUS. -/
inductive Condition where
  /-- FAIL with its cause. -/
  | failed (cause : BitVec 4)
  /-- OVF, whose cause is 5. -/
  | overflowed

/-- From `s` to `t` STATUS was cleared and the given condition recorded, if there is one. -/
def Recorded (s t : State) : Option Condition → Prop
  | some (.failed c) => StatusFailed c s t
  | some .overflowed => StatusOverflowed s t
  | none => StatusCleared s t

/-- The condition that STATUS tells by FAIL, CAUSE and OVF. -/
def Status.condition (st : Status) : Option Condition :=
  if st.fail then some (.failed st.cause) else if st.ovf then some .overflowed else none

theorem Status.condition_of_recorded {s t : State} : ∀ {c : Option Condition}, Recorded s t c →
    t.status.condition = c
  | some (.failed _), h => congrArg Status.condition h
  | some .overflowed, h => congrArg Status.condition h
  | none, h => congrArg Status.condition h

section
variable {s t : State}

/-- STATUS tells one condition, so only one is recorded. -/
theorem recorded_iff_eq {c d : Option Condition} (h : Recorded s t c) : Recorded s t d ↔ c = d :=
  ⟨fun hd => (Status.condition_of_recorded h).symm.trans (Status.condition_of_recorded hd),
    fun he => he ▸ h⟩

theorem recorded_ite {p : Prop} [Decidable p] {c : Condition} (hc : p → Recorded s t (some c))
    (hn : ¬ p → StatusCleared s t) : Recorded s t (if p then some c else none) := by
  split
  · exact hc ‹_›
  · exact hn ‹_›

end

/-- NORM, ADD and SUB of the exact total `X` overflow when its seconds do not fit int32. -/
def secondsCondition (X : Int) : Option Condition :=
  if X.tdiv 1000000000 < -2 ^ 31 ∨ 2 ^ 31 - 1 < X.tdiv 1000000000 then some .overflowed else none

/-- The condition each command raises (60_exceptions.md R114). -/
def conditionOf (s : State) : Instr → Option Condition
  | .int2wire a => if secOf s a < 0 ∨ nsOf s a < 0 then some (.failed 3) else none
  | .wire2int _ x => if 2 ^ 31 - 1 < (wireOperand s x).1.toNat then some (.failed 4) else none
  | .int2sn a _ =>
    if totalOf s a * 2 ^ 16 < -2 ^ 63 ∨ 2 ^ 63 - 1 < totalOf s a * 2 ^ 16 then some (.failed 6)
    else none
  | .norm _ a => secondsCondition (totalOf s a)
  | .add _ a b => secondsCondition (totalOf s a + totalOf s b)
  | .sub _ a b => secondsCondition (totalOf s a - totalOf s b)
  | _ => none

theorem writeNormalized_recorded (rd : TReg) (X : Int) (s : State) :
    Recorded s (s.beginCommand.writeNormalized rd X) (secondsCondition X) := by
  obtain ⟨-, -, hfit, hout⟩ := normalizedInto_writeNormalized rd X s
  exact recorded_ite hout fun h => hfit (by omega)

theorem writeFields_statusCleared (s : State) (fs : List FieldWrite) :
    StatusCleared s (s.beginCommand.writeFields fs) := by
  rw [StatusCleared, State.writeFields_eq]
  rfl

/-- STATUS records the command's own condition. -/
theorem exec_recorded {i : Instr} {s t : State} (h : exec i s = .next t) :
    Recorded s t (conditionOf s i) := by
  cases i with
  | norm rd a =>
    cases h
    exact writeNormalized_recorded rd (totalOf s a) s
  | add rd a b =>
    cases h
    rw [addTotal_eq_total]
    exact writeNormalized_recorded rd (totalOf s a + totalOf s b) s
  | sub rd a b =>
    cases h
    rw [subTotal_eq_total]
    exact writeNormalized_recorded rd (totalOf s a - totalOf s b) s
  | int2wire a =>
    refine recorded_ite (fun hneg => ?_) fun hneg => ?_
    · rw [eq_of_exec_int2wire_out h (by omega)]; rfl
    · rw [eq_of_exec_int2wire_in h (by omega)]; rfl
  | wire2int d x =>
    refine recorded_ite (fun hout => ?_) fun hout => ?_ <;>
      simp only [wireOperand_eq_wireSource] at hout
    · rw [eq_of_exec_wire2int_out h (by omega)]; rfl
    · rw [eq_of_exec_wire2int_in h (by omega)]; rfl
  | int2sn a d =>
    refine recorded_ite (fun hout => ?_) fun hout => ?_
    · rw [eq_of_exec_int2sn_out h (by omega)]; rfl
    · rw [eq_of_exec_int2sn_in h (by omega)]; cases d <;> rfl
  | packSync | packDelayReq | packPdelayReq | packPdelayResp | packFollowUp | packDelayResp
  | packPdelayRespFu | packAnnounce | packManagement =>
    cases h
    exact writeFields_statusCleared s _
  | _ => cases h; rfl

/-! Which commands raise which condition, and when. -/

section
variable {s : State} {i : Instr}

theorem conditionOf_eq_failed_3 : conditionOf s i = some (.failed 3) ↔
    ∃ a, i = .int2wire a ∧ (secOf s a < 0 ∨ nsOf s a < 0) := by
  cases i with
  | int2wire a => simp [conditionOf, or_iff_not_imp_left]
  | _ => simp [conditionOf, secondsCondition]

theorem conditionOf_eq_failed_4 : conditionOf s i = some (.failed 4) ↔
    ∃ d x, i = .wire2int d x ∧ 2 ^ 31 - 1 < (wireOperand s x).1.toNat := by
  cases i with
  | wire2int d x => simp [conditionOf]
  | _ => simp [conditionOf, secondsCondition]

theorem conditionOf_eq_failed_6 : conditionOf s i = some (.failed 6) ↔ ∃ a x, i = .int2sn a x ∧
    (totalOf s a * 2 ^ 16 < -2 ^ 63 ∨ 2 ^ 63 - 1 < totalOf s a * 2 ^ 16) := by
  cases i with
  | int2sn a x => simp [conditionOf, or_iff_not_imp_left]
  | _ => simp [conditionOf, secondsCondition]

theorem conditionOf_eq_overflowed : conditionOf s i = some .overflowed ↔ ∃ X : Int,
    ((∃ d a, i = .norm d a ∧ X = totalOf s a) ∨
      (∃ d a b, i = .add d a b ∧ X = totalOf s a + totalOf s b) ∨
      ∃ d a b, i = .sub d a b ∧ X = totalOf s a - totalOf s b) ∧
    (X.tdiv 1000000000 < -2 ^ 31 ∨ 2 ^ 31 - 1 < X.tdiv 1000000000) := by
  cases i with
  | norm | add | sub => simp [conditionOf, secondsCondition, or_iff_not_imp_left]
  | _ => simp [conditionOf]

end

/-- Settles O12: STATUS records the command's own condition and no other. -/
theorem conditionsHaveTheirCauses : Obligations.ConditionsHaveTheirCauses := by
  intro i s
  obtain ⟨t, ht⟩ := exec_next i s
  have recorded (c : Condition) : Recorded s t (some c) ↔ conditionOf s i = some c :=
    recorded_iff_eq (exec_recorded ht)
  exact ⟨t, ht, (recorded (.failed 3)).trans conditionOf_eq_failed_3,
    (recorded (.failed 4)).trans conditionOf_eq_failed_4,
    (recorded (.failed 6)).trans conditionOf_eq_failed_6,
    (recorded .overflowed).trans conditionOf_eq_overflowed, exec_statusUpdate ht⟩

end Sys2Proof.Machine

/-! PROOFS of the statements of 70_reset_and_hazards.md: every run ends (O7), what a command between two word
writes reads (O49), the stale data that stays (O53), and the state after reset (O9, O48). -/

namespace Sys2Proof.Machine

open Sys2Proof.Slice0

/-! ### A run uses up its interactions (70_reset_and_hazards.md R134, R135) -/

/-- A step performs the oldest interaction and leaves the others pending. -/
theorem step_next_of_pending {s : State} {e : HostEvent} {rest : List HostEvent}
    (h : s.pending = e :: rest) : ∃ t, step s = .next t ∧ t.pending = rest := by
  obtain ⟨t, ht, hp⟩ := hostEvent_next e { s with pending := rest }
  exact ⟨t, (step_of_pending h).trans ht, hp⟩

theorem responds (s : State) : Responds s := by
  cases hp : s.pending with
  | nil => exact ⟨s, step_idle hp⟩
  | cons e rest =>
    obtain ⟨t, ht, -⟩ := step_next_of_pending hp
    exact ⟨t, ht⟩

theorem run_pending {events : List HostEvent} {s : State} (h : s.pending = events) :
    ∃ t : State, Host.Core.run Sys2Proof.core events.length s = .next t ∧ t.pending = [] := by
  induction events generalizing s with
  | nil => exact ⟨s, rfl, h⟩
  | cons e rest ih =>
    obtain ⟨s', hs', hp⟩ := step_next_of_pending h
    obtain ⟨t, ht, hnil⟩ := ih hp
    exact ⟨t, (run_step hs' rest.length).trans ht, hnil⟩

/-- Settles O7, by induction on the pending interactions. -/
theorem everyRunEnds : Obligations.EveryRunEnds :=
  ⟨responds, fun _ => run_pending rfl, fun _ => step_idle⟩

/-! ### A command between two word writes (70_reset_and_hazards.md R130, 20_memory.md R43) -/

theorem step_write_snLo (s : State) (rest : List HostEvent) (v : Word) :
    step { s with pending := .write 0x060 .b4 v :: rest } =
      .next { s with pending := rest, response := some .written, sn := setLo s.sn v } :=
  step_write_register (a := 0x060) (r := .snLo) (by decide) (by decide) rfl nofun s rest v

theorem step_write_snHi (s : State) (rest : List HostEvent) (v : Word) :
    step { s with pending := .write 0x064 .b4 v :: rest } =
      .next { s with pending := rest, response := some .written, sn := setHi s.sn v } :=
  step_write_register (a := 0x064) (r := .snHi) (by decide) (by decide) rfl nofun s rest v

/-- The write of SN2INT's word converts `SN` into `T[rd]`; `SN` and what is still pending stay. -/
theorem step_sn2int (s : State) (rest : List HostEvent) (rd : TReg) :
    ∃ t, step { s with pending := .write 0x000 .b4 (encode (.sn2int rd .sn)) :: rest } = .next t ∧
      t.getT rd = snToInternal s.sn ∧ t.sn = s.sn ∧ t.pending = rest :=
  ⟨_, stepPerformsTheDecodedCommand s rest _ _ (decode_encode _), State.getT_setT_same .., rfl, rfl⟩

/-- Settles O49: the conversion reads `SN` between the two writes, which replace one half each. -/
theorem commandSeesTornScaledValue : Obligations.CommandSeesTornScaledValue := by
  intro s rd lo hi
  obtain ⟨u, hu, hT, hsn, hp⟩ := step_sn2int
    { s with response := some .written, sn := setLo s.sn lo } [.write 0x064 .b4 hi] rd
  have hhi := step_write_snHi u [] hi
  rw [← hp] at hhi
  refine ⟨_, ((run_step (step_write_snLo s _ lo) 2).trans (run_step hu 1)).trans (run_step hhi 0),
    hT, ?_⟩
  show hi ++ loHalf u.sn = hi ++ lo
  rw [hsn, loHalf_setLo]

/-! ### Stale data (70_reset_and_hazards.md R132) -/

/-- A field of OBUF beyond the message's length is as before. -/
theorem bufRead_of_framedOnly {len off n : Nat} {s t : State} (h : FramedOnly len s t)
    (hoff : len ≤ off) : t.bufRead .obuf off n = s.bufRead .obuf off n := by
  obtain ⟨-, -, hbeyond, -⟩ := h
  exact State.bufRead_congr fun k _ => hbeyond (off + k) (Nat.le_add_right_of_le hoff)

/-- UNPACK.SYNC leaves the requesting port identity of an earlier message. -/
theorem exec_unpackSync_keeps_reqId (s : State) : ∃ t, exec .unpackSync s = .next t ∧
    t.rx.reqclk = s.rx.reqclk ∧ t.rx.reqport = s.rx.reqport := by
  obtain ⟨t, ht, -, -, hframe, -⟩ := exec_parsesTimestamp (i := .unpackSync) (fun _ => rfl) s
  exact ⟨t, ht, congrArg (·.rx.reqclk) hframe, congrArg (·.rx.reqport) hframe⟩

/-- Settles O53: the second command's frame, on top of what the first has written. -/
theorem staleDataStays : Obligations.StaleDataStays := by
  obtain ⟨-, announce⟩ := packAnnounceMessage
  constructor
  · intro s
    obtain ⟨t, ht, -, -, hutcoff, -, -, -, -, -, -, hgmid, -⟩ := announce s
    obtain ⟨u, hu, ⟨-, -, hlength, -⟩, -, hframe⟩ :=
      exec_pack_headerAndTimestamp (show (.packSync, 0x0, 44, 0x00) ∈ packTable by decide) nofun t
    have ⟨_, _, hbeyond, _⟩ := hframe
    exact ⟨t, u, ht, hu, (bufRead_of_framedOnly hframe (by decide)).trans hutcoff,
      (bufRead_of_framedOnly hframe (by decide)).trans hgmid, hbeyond, hlength⟩
  · intro s
    obtain ⟨t, ht, -, hreqclk, hreqport, -⟩ :=
      exec_parsesPortIdentity (i := .unpackDelayResp) (fun _ => rfl) s
    obtain ⟨u, hu, hclk, hport⟩ := exec_unpackSync_keeps_reqId t
    exact ⟨t, u, ht, hu, hclk ▸ hreqclk, hport ▸ hreqport⟩

/-! ### The state after reset (70_reset_and_hazards.md R125, R126) -/

/-- Settles O9: the empty buffers and the cleared STATUS, with nothing pending. -/
theorem resetMeetsInvariant : Obligations.ResetMeetsInvariant := inv_reset 0 []

theorem State.getT_reset (i : TReg) : State.reset.getT i = ⟨0, 0⟩ := by
  simp [State.getT, State.reset]

theorem Status.toWord_reset : State.reset.status.toWord = 0 := by decide

theorem step_reset (s : State) (rest : List HostEvent) :
    step { s with pending := .reset :: rest } =
      .next { State.reset with resets := s.resets + 1, pending := rest } := rfl

/-- Settles O48: the next state is the state of `State.reset` but for the count and what is pending. -/
theorem resetZeroesEveryRegister : Obligations.ResetZeroesEveryRegister := fun s rest =>
  ⟨_, step_reset s rest, State.getT_reset, rfl, rfl, rfl, rfl, rfl, rfl, Status.toWord_reset, rfl, rfl,
    rfl, rfl, rfl, rfl, rfl, rfl, rfl, rfl, rfl, rfl, rfl⟩

end Sys2Proof.Machine
